-- ==== Sys2Proof/Word.lean ====
section
/-! DEFINITION. The machine's data types: the trit, the fixed-width balanced-ternary field and its named widths
(spec/40_ternary_word.md, rules R90 to R92, R102). What is computed with them stands in Machine/Ternary.lean. -/

namespace Sys2Proof

/-- R90: a trit is Negative, Zero or Positive, written `-`, `0`, `+` (R8).
DESIGN CHOICE (the spec's D9, log 16, safe): an abstract three-valued type, no binary code. -/
inductive Trit where
  | N
  | Z
  | P
  deriving DecidableEq, Repr, Inhabited

/-- R91: a fixed-length sequence of `n` trits, position 0 (the list's head) least significant; the length never
changes after construction, so it is carried as a proof. -/
structure TritField (n : Nat) where
  trits : List Trit
  length_eq : trits.length = n
  deriving DecidableEq, Repr

/-- R92: the machine word, 27 trits: registers, the PC, memory contents, instructions. -/
abbrev Word := TritField 27

/-- R92: an address is an alias of Word. -/
abbrev Address := Word

/-- R92: a register index is a 3-trit field. -/
abbrev RegIndex := TritField 3

/-- R92: the immediate field of an instruction word. -/
abbrev ImmField := TritField 13

namespace TritField

/-- The field whose `n` trits are all `0`. -/
def zero (n : Nat) : TritField n := ⟨List.replicate n .Z, List.length_replicate⟩

/-- `f.t[i]` (R9): the trit at position `i`, position 0 least significant. -/
def t {n : Nat} (f : TritField n) (i : Fin n) : Trit := f.trits[i.val]'(by rw [f.length_eq]; exact i.isLt)

/-- A field with one more trit below position 0 of `f`. -/
def cons {n : Nat} (d : Trit) (f : TritField n) : TritField (n + 1) := ⟨d :: f.trits, by simp [f.length_eq]⟩

end TritField

/-- R102: the zero word, the value of every unwritten register and address. -/
def Word.zero : Word := TritField.zero 27

/-- The word of value 1, the PC's usual increment (R170). -/
def Word.one : Word := ⟨.P :: List.replicate 26 .Z, rfl⟩

/-- R21: index 0, the hardwired zero register. -/
def RegIndex.r0 : RegIndex := TritField.zero 3

end Sys2Proof
end

