-- ==== Sys2Proof/Machine/State.lean ====
section
/-! DEFINITION. The machine's state as plain data, the reasons a step can stop, and the state after reset
(spec/10_state.md, rules R20 to R34; spec/43_alu.md, rules R140 and R149). -/

namespace Sys2Proof.Machine

/-- R142, R151: the arithmetic unit's operations, a closed set. -/
inductive AluOp where
  | add
  | sub
  | passB
  deriving DecidableEq, Repr, Inhabited

/-- R140: the latches of the arithmetic unit, its two input words, the selected operation, the result and the ternary
zero flag. They are hidden state, not architectural (R30, conflict C1): no cycle reads one that an earlier cycle left
(R150). DEDUCED (R30 allows a model to expose them; log 2, safe). -/
structure AluLatches where
  a : Word
  b : Word
  op : AluOp
  result : Word
  zeroFlag : Trit
  deriving DecidableEq, Repr

/-- R149: the latches as `reset()` leaves them. DESIGN CHOICE (the spec's D18; log 5, unsafe). -/
def AluLatches.initial : AluLatches := ⟨Word.zero, Word.zero, .add, Word.zero, .Z⟩

/-- A written word of the address space: the address's value (R40: `-M27 .. +M27`) and the word it holds.
DESIGN CHOICE: the machine has no bytes (R44), so a cell holds a word and no `Host.Cell` is used (log 1, safe). -/
abbrev Cell := Int × Word

/-- R40, R41: the address space, as the list of the words that differ from the zero word, by strictly rising address.
An unlisted address reads as the zero word (R41). The canonical form is `Memory.wf` (Machine/Ops.lean). -/
abbrev Memory := List Cell

/-- R20: the architectural state is exactly `pc`, `regs` and `mem`; `alu` is the hidden state of R30.
`draws` is the model's own field: how many free ALU inputs have been drawn (log 3). -/
structure State where
  /-- R26: the address of the instruction to be executed. -/
  pc : Word
  /-- R21: one word for each index `-13 .. +13`, index `i` in slot `i + 13`. Slot 13, that of `r0`, is never read and
  never written (log 15). -/
  regs : Vector Word 27
  /-- R40: the unified address space. -/
  mem : Memory
  /-- R140: the arithmetic unit's latches. -/
  alu : AluLatches
  /-- The model's own counter of free values. -/
  draws : Nat
  deriving DecidableEq, Repr

/-- The machine raises no exception (R200). The one reason a step can stop is the model's own check. -/
inductive Fault where
  /-- R203, D15: the digit reduction R94 met a digit outside `-1, 0, 1`. Raised by the immediate output and by the PC's
  two sums, in every instruction's cycle; derived unreachable, and safe: a fault the hardware never reaches refutes no
  true claim (log 7). -/
  | digitReduction
  deriving DecidableEq, Repr

/-- Reasons the model gives an instruction no meaning. None is left: every word runs (R68, R175, R202). -/
inductive Refusal where
  /-- Raised by an arm of `exec` whose instruction has no meaning yet; no arm raises it. Safe. -/
  | notModelled (mnemonic : String)
  deriving DecidableEq, Repr

/-- R33, R231: the state after building the unit, the only reset (R230): the PC, every register and every address hold
the zero word. DESIGN CHOICE (the spec's D7 for the PC and the entry point; log 10, unsafe). The latches are as R149
leaves them (log 5) and the model's own counter starts at 0 (log 4). -/
def State.reset : State :=
  { pc := Word.zero
    regs := Vector.replicate 27 Word.zero
    mem := []
    alu := AluLatches.initial
    draws := 0 }

end Sys2Proof.Machine
end

