-- ==== Sys2Proof/Config.lean ====
section
/-! DEFINITION. What is fixed for the machine and the values the spec leaves open. Every width and count is fixed by the
spec (spec/00_scope.md, rule R7), so the only open values are the arithmetic unit's inputs in the cycles of Jal and Nop
(spec/93_implementation_defined.md U3, U4; log 3). -/

namespace Sys2Proof.Config

/-- R7: the largest magnitude of an `n`-trit field, `(3^n - 1) / 2`. -/
def maxMagnitude (n : Nat) : Int := ((3 ^ n - 1) / 2 : Nat)

/-- R7: `M27`, the largest value of a Word and the highest address. -/
def m27 : Int := 3812798742493

/-- U4, D6: trit `position` of the ALU's first input in the cycle that makes draw number `draw`. A free value. -/
opaque freeOperandA (draw position : Nat) : Trit

/-- U4, D6: trit `position` of the ALU's second input in that cycle. A free value. -/
opaque freeOperandB (draw position : Nat) : Trit

/-- U3, U4: the ALU operation of that cycle. A free value. -/
opaque freeAluOp (draw : Nat) : Machine.AluOp

end Sys2Proof.Config
end

