-- ==== Sys2Proof/Machine/Ternary.lean ====
section
/-! DEFINITION. The ternary word encoder/decoder: `to_value`, `from_value`, negation, widening, slicing and word addition
(spec/40_ternary_word.md, rules R90 to R103), with the digit-reduction check of spec/60_exceptions.md rule R203. -/

namespace Sys2Proof

/-- R90: `int(N) = -1`, `int(Z) = 0`, `int(P) = +1`. -/
def Trit.toInt : Trit → Int
  | .N => -1
  | .Z => 0
  | .P => 1

/-- R94: `trit(-1) = N`, `trit(0) = Z`, `trit(1) = P`. Any other digit is the unreachable case of R203 and has no trit. -/
def Trit.ofInt? (r : Int) : Option Trit :=
  if r = -1 then some .N else if r = 0 then some .Z else if r = 1 then some .P else none

/-- R98: flips Positive and Negative, Zero unchanged. -/
def Trit.neg : Trit → Trit
  | .N => .P
  | .Z => .Z
  | .P => .N

/-- R93, on the bare trits, least significant first: `Σ int(t[i]) · 3^i` in Horner's form. -/
def valueOfTrits : List Trit → Int
  | [] => 0
  | d :: ds => d.toInt + 3 * valueOfTrits ds

/-- R94, one position: the adjusted remainder and the quotient carried on, from a truncating division. -/
def digitStep (x : Int) : Int × Int :=
  let r := x.tmod 3
  let q := x.tdiv 3
  if r > 1 then (r - 3, q + 1) else if r < -1 then (r + 3, q - 1) else (r, q)

namespace TritField

/-- R93 `to_value`, written `val`: the integer a field denotes. -/
def val {n : Nat} (f : TritField n) : Int := valueOfTrits f.trits

/-- R94 `from_value` with the check of R203: `none` is the invariant violation, a digit outside `-1, 0, 1`. -/
def fromValue? : (n : Nat) → Int → Option (TritField n)
  | 0, _ => some ⟨[], rfl⟩
  | n + 1, x =>
    match Trit.ofInt? (digitStep x).1 with
    | none => none
    | some d => (fromValue? n (digitStep x).2).map (cons d)

/-- R94: after the adjustment the remainder is a trit's value, and nothing is lost: `x = r + 3 · q`. -/
theorem digitStep_spec (x : Int) :
    (∃ d : Trit, Trit.ofInt? (digitStep x).1 = some d ∧ d.toInt = (digitStep x).1) ∧
      x = (digitStep x).1 + 3 * (digitStep x).2 := by
  have hsplit : x.tmod 3 + 3 * x.tdiv 3 = x := Int.tmod_add_mul_tdiv x 3
  have hlow : -3 < x.tmod 3 := by
    have := Int.tmod_lt_of_pos (-x) (b := 3) (by decide)
    rw [Int.neg_tmod] at this
    omega
  have hhigh : x.tmod 3 < 3 := Int.tmod_lt_of_pos x (by decide)
  have hdigit : ∀ r : Int, -2 < r → r < 2 → ∃ d : Trit, Trit.ofInt? r = some d ∧ d.toInt = r := by
    intro r h1 h2
    obtain rfl | rfl | rfl : r = -1 ∨ r = 0 ∨ r = 1 := by omega
    · exact ⟨.N, rfl, rfl⟩
    · exact ⟨.Z, rfl, rfl⟩
    · exact ⟨.P, rfl, rfl⟩
  unfold digitStep
  dsimp only
  split
  · exact ⟨hdigit _ (by omega) (by omega), by dsimp only; omega⟩
  · split
    · exact ⟨hdigit _ (by omega) (by omega), by dsimp only; omega⟩
    · exact ⟨hdigit _ (by omega) (by omega), by dsimp only; omega⟩

/-- R203: the unreachable cases of the digit reduction are not reached. -/
theorem fromValue?_isSome (n : Nat) (x : Int) : (fromValue? n x).isSome = true := by
  induction n generalizing x with
  | zero => rfl
  | succ n ih =>
    obtain ⟨⟨d, hd, -⟩, -⟩ := digitStep_spec x
    simp only [fromValue?, hd, Option.isSome_map]
    exact ih _

/-- R94, R95 `from_value`, written `fv_N(v)`: total, since the check never fails. -/
def fromValue (n : Nat) (x : Int) : TritField n := (fromValue? n x).get (fromValue?_isSome n x)

/-- R96: `bal_N(v) = ((v + M_N) mod 3^N) - M_N`, the balanced residue. -/
def bal (n : Nat) (v : Int) : Int := (v + Config.maxMagnitude n) % (3 ^ n : Nat) - Config.maxMagnitude n

/-- R98: digit-wise negation. -/
def neg {n : Nat} (f : TritField n) : TritField n := ⟨f.trits.map Trit.neg, by simp [f.length_eq]⟩

/-- R9: `f.t[lo+len-1:lo]`, the field of `len` trits that starts at position `lo`. -/
def slice {n : Nat} (f : TritField n) (lo len : Nat) (h : lo + len ≤ n) : TritField len :=
  ⟨(f.trits.drop lo).take len, by simp [f.length_eq]; omega⟩

/-- R99: `sext_27` of a field of any width up to a Word's: the trits of `f` below its width, `0` trits above.
DEDUCED (conflict C6: no sign trit is replicated; log 20, unsafe). -/
def sext {n : Nat} (f : TritField n) (h : n ≤ 27) : Word :=
  ⟨f.trits ++ List.replicate (27 - n) .Z, by simp [f.length_eq]; omega⟩

end TritField

/-- R100 `a +w b = fv_27(val(a) + val(b))` with the check of R203. -/
def Word.add? (a b : Word) : Option Word := TritField.fromValue? 27 (a.val + b.val)

/-- R100 `a +w b`. DESIGN CHOICE for the PC's sums (the spec's D2, R171: they wrap; log 6, unsafe). -/
def Word.add (a b : Word) : Word := TritField.fromValue 27 (a.val + b.val)

/-- R71: a register index given as an integer wraps by `fv_3`. -/
def RegIndex.ofInt (v : Int) : RegIndex := TritField.fromValue 3 v

/-- R131: the immediate output, `sext_27` of the 13-trit field that holds `imm`, with the check of R203.
DESIGN CHOICE: an immediate outside `±797161`, which no decoded instruction has, wraps as the encoder wraps it (R71;
log 14, safe). -/
def Word.ofImm? (imm : Int) : Option Word := (TritField.fromValue? 13 imm).map (fun f => f.sext (by decide))

/-- R131: the immediate output, `sext_27(imm)`. -/
def Word.ofImm (imm : Int) : Word := (TritField.fromValue 13 imm).sext (by decide)

end Sys2Proof
end

