-- ==== Sys2Proof/Syntax.lean ====
section
/-! DEFINITION. The instruction set as a tagged variant, one constructor per row of spec/opcode_table.json
(spec/30_encoding.md, rules R62, R67, R69). -/

namespace Sys2Proof

/-- The nine instructions, each carrying the operand fields it needs (R62, R69).
A register operand is a 3-trit field (R66); an immediate is a signed integer (R63, R71), whose range WellFormed checks.
An immediate offsets in words and is never scaled (R65). -/
inductive Instr where
  /-- R180 Add rd, rs1, rs2. -/
  | add (rd rs1 rs2 : RegIndex)
  /-- R181 Sub rd, rs1, rs2. -/
  | sub (rd rs1 rs2 : RegIndex)
  /-- R182 Addi rd, rs1, imm. -/
  | addi (rd rs1 : RegIndex) (imm : Int)
  /-- R183 Lw rd, rs1 (base), imm (offset). -/
  | lw (rd rs1 : RegIndex) (imm : Int)
  /-- R184 Sw rs1 (base), rs2 (value), imm (offset). -/
  | sw (rs1 rs2 : RegIndex) (imm : Int)
  /-- R185 Beq rs1, rs2, imm (offset from the Beq itself). -/
  | beq (rs1 rs2 : RegIndex) (imm : Int)
  /-- R186 Jal rd (link), imm (offset from the Jal itself). -/
  | jal (rd : RegIndex) (imm : Int)
  /-- R187 Lui rd, imm (forwarded unchanged, no shift). -/
  | lui (rd : RegIndex) (imm : Int)
  /-- R188 Nop, and every unassigned opcode. -/
  | nop
  deriving DecidableEq, Repr

end Sys2Proof
end

