-- ==== Sys2Proof/WellFormed.lean ====
section
/-! DEFINITION. Which instruction terms are instructions of the machine: those whose immediate fits the 13-trit field
(spec/30_encoding.md, rules R61, R63, R72). Register operands need no check: all 27 indices are legal (R66). -/

namespace Sys2Proof

/-- R7, R61: the 13-trit immediate field holds exactly `-797161 .. +797161`. -/
abbrev Instr.immInRange (imm : Int) : Prop := -797161 ≤ imm ∧ imm ≤ 797161

/-- An instruction is well formed when its immediate, if it carries one, is in range (R72 (1)). -/
def Instr.wellFormed (i : Instr) : Bool :=
  match i with
  | .add _ _ _ => true
  | .sub _ _ _ => true
  | .addi _ _ imm => decide (Instr.immInRange imm)
  | .lw _ _ imm => decide (Instr.immInRange imm)
  | .sw _ _ imm => decide (Instr.immInRange imm)
  | .beq _ _ imm => decide (Instr.immInRange imm)
  | .jal _ imm => decide (Instr.immInRange imm)
  | .lui _ imm => decide (Instr.immInRange imm)
  | .nop => true

end Sys2Proof
end

