-- ==== Sys2Proof/Decode.lean ====
section
/-! DEFINITION. The instruction word codec: the fields of a word, the decoder, total on all `3^27` words, and the encoder
(spec/30_encoding.md, rules R60 to R74). No word is refused: no encoding is illegal or reserved (R68, R73). -/

namespace Sys2Proof

/-- R61, R63: the opcode's value, `val(w.t[4:0])`. -/
def Word.opcode (w : Word) : Int := (w.slice 0 5 (by decide)).val

/-- R61, R63: the destination register field, `w.t[7:5]`. -/
def Word.rd (w : Word) : RegIndex := w.slice 5 3 (by decide)

/-- R61, R63: the first source register field, `w.t[10:8]`. -/
def Word.rs1 (w : Word) : RegIndex := w.slice 8 3 (by decide)

/-- R61, R63: the second source register field, `w.t[13:11]`. -/
def Word.rs2 (w : Word) : RegIndex := w.slice 11 3 (by decide)

/-- R61: the immediate field, `w.t[26:14]`. -/
def Word.immField (w : Word) : ImmField := w.slice 14 13 (by decide)

/-- R63, R65: the immediate's value, a signed integer. -/
def Word.imm (w : Word) : Int := w.immField.val

/-- R69 `decode_word`: classifies by the opcode alone and copies the fields the variant carries; every opcode outside
`1 .. 8` is Nop (R68). DESIGN CHOICE (the spec's D3, R70: fields a variant does not carry are ignored; log 8, unsafe). -/
def decode (w : Word) : Instr :=
  match w.opcode with
  | 1 => .add w.rd w.rs1 w.rs2
  | 2 => .sub w.rd w.rs1 w.rs2
  | 3 => .addi w.rd w.rs1 w.imm
  | 4 => .lw w.rd w.rs1 w.imm
  | 5 => .sw w.rs1 w.rs2 w.imm
  | 6 => .beq w.rs1 w.rs2 w.imm
  | 7 => .jal w.rd w.imm
  | 8 => .lui w.rd w.imm
  | _ => .nop

/-- R61: the word with the given fields, the opcode and the immediate wrapped by `fv_5` and `fv_13` (R71). -/
def Word.ofFields (op : Int) (rd rs1 rs2 : RegIndex) (imm : Int) : Word :=
  ⟨(TritField.fromValue 5 op).trits ++ rd.trits ++ rs1.trits ++ rs2.trits ++ (TritField.fromValue 13 imm).trits, by
    simp [TritField.length_eq]⟩

/-- R71 `encode`: the opcode of R67 and each carried field; unused fields are `0` trits (D3), and Nop is the zero word.
DESIGN CHOICE (the spec's D3 and D4; log 8 and log 9, safe for execution). -/
def encode (i : Instr) : Word :=
  match i with
  | .add rd rs1 rs2 => Word.ofFields 1 rd rs1 rs2 0
  | .sub rd rs1 rs2 => Word.ofFields 2 rd rs1 rs2 0
  | .addi rd rs1 imm => Word.ofFields 3 rd rs1 RegIndex.r0 imm
  | .lw rd rs1 imm => Word.ofFields 4 rd rs1 RegIndex.r0 imm
  | .sw rs1 rs2 imm => Word.ofFields 5 RegIndex.r0 rs1 rs2 imm
  | .beq rs1 rs2 imm => Word.ofFields 6 RegIndex.r0 rs1 rs2 imm
  | .jal rd imm => Word.ofFields 7 rd RegIndex.r0 RegIndex.r0 imm
  | .lui rd imm => Word.ofFields 8 rd RegIndex.r0 RegIndex.r0 imm
  | .nop => Word.ofFields 0 RegIndex.r0 RegIndex.r0 RegIndex.r0 0

/-- R72 (2): the instruction with its immediate, if it carries one, wrapped into the 13-trit field. -/
def Instr.wrapImm (i : Instr) : Instr :=
  match i with
  | .add rd rs1 rs2 => .add rd rs1 rs2
  | .sub rd rs1 rs2 => .sub rd rs1 rs2
  | .addi rd rs1 imm => .addi rd rs1 (TritField.bal 13 imm)
  | .lw rd rs1 imm => .lw rd rs1 (TritField.bal 13 imm)
  | .sw rs1 rs2 imm => .sw rs1 rs2 (TritField.bal 13 imm)
  | .beq rs1 rs2 imm => .beq rs1 rs2 (TritField.bal 13 imm)
  | .jal rd imm => .jal rd (TritField.bal 13 imm)
  | .lui rd imm => .lui rd (TritField.bal 13 imm)
  | .nop => .nop

/-- The word that a number of spec/opcode_table.json stands for. The table has trits and no bits; its `match` is the value
of the word whose other trits are `0`, so a number is read as a word's value, reduced by `fv_27` (R94, R95).
DESIGN CHOICE (log 11, safe): `w` and `w - 3^27` give the same word, so `0 .. 3^27 - 1` reach every word. -/
def tableWord (w : Nat) : Word := TritField.fromValue 27 w

/-- The instruction the decoder reads from the word a table number stands for. Every instruction is one word (R60), so
`nbits` changes nothing, and no word is refused (R68). -/
def decodeTableWord (_nbits w : Nat) : Option Instr := some (decode (tableWord w))

end Sys2Proof
end

