-- ==== Sys2Proof/Machine/Circuit.lean ====
section
/-! DEFINITION. The stateless circuit primitives: the ternary full adder and the minimum gate
(spec/41_circuit_primitives.md, rules R110 to R114). -/

namespace Sys2Proof

/-- R112: the full adder's outputs `(sum, carry_out)` for all 27 input triples. -/
def fullTritAdder (a b carryIn : Trit) : Trit × Trit :=
  match a, b, carryIn with
  | .N, .N, .N => (.Z, .N)
  | .N, .N, .Z => (.P, .N)
  | .N, .N, .P => (.N, .Z)
  | .N, .Z, .N => (.P, .N)
  | .N, .Z, .Z => (.N, .Z)
  | .N, .Z, .P => (.Z, .Z)
  | .N, .P, .N => (.N, .Z)
  | .N, .P, .Z => (.Z, .Z)
  | .N, .P, .P => (.P, .Z)
  | .Z, .N, .N => (.P, .N)
  | .Z, .N, .Z => (.N, .Z)
  | .Z, .N, .P => (.Z, .Z)
  | .Z, .Z, .N => (.N, .Z)
  | .Z, .Z, .Z => (.Z, .Z)
  | .Z, .Z, .P => (.P, .Z)
  | .Z, .P, .N => (.Z, .Z)
  | .Z, .P, .Z => (.P, .Z)
  | .Z, .P, .P => (.N, .P)
  | .P, .N, .N => (.N, .Z)
  | .P, .N, .Z => (.Z, .Z)
  | .P, .N, .P => (.P, .Z)
  | .P, .Z, .N => (.Z, .Z)
  | .P, .Z, .Z => (.P, .Z)
  | .P, .Z, .P => (.N, .P)
  | .P, .P, .N => (.P, .Z)
  | .P, .P, .Z => (.N, .P)
  | .P, .P, .P => (.Z, .P)

/-- R113: the Kleene conjunction, the lesser operand in the order N < Z < P. No instruction uses it (R114). -/
def minimum (a b : Trit) : Trit := if a.toInt ≤ b.toInt then a else b

end Sys2Proof
end

