-- ==== Sys2Proof/Machine/Flags.lean ====
section
/-! DEFINITION. The machine's only flag, the arithmetic unit's ternary zero flag
(spec/43_alu.md, rule R146; spec/10_state.md, rule R29). -/

namespace Sys2Proof.Machine

/-- R146: Positive when every trit of the result is Zero, else Zero; never Negative. -/
def zeroFlagOf (result : Word) : Trit := if result.trits.all (· == .Z) then .P else .Z

end Sys2Proof.Machine
end

