-- ==== Sys2Proof/Machine/Alu.lean ====
section
/-! DEFINITION. The arithmetic unit: a trit-serial ripple of full adders, its three operations and its latches
(spec/43_alu.md, rules R140 to R151). -/

namespace Sys2Proof

/-- R143 on bare trits: one full adder per position from the least significant up, the carry running; the carry out of
the last position is discarded. -/
def rippleTrits : Trit → List Trit → List Trit → List Trit
  | c, a :: as, b :: bs => (fullTritAdder a b c).1 :: rippleTrits (fullTritAdder a b c).2 as bs
  | _, [], _ => []
  | _, _ :: _, [] => []

theorem rippleTrits_length (c : Trit) (as bs : List Trit) (h : as.length = bs.length) :
    (rippleTrits c as bs).length = as.length := by
  induction as generalizing c bs with
  | nil => rfl
  | cons a as ih =>
    cases bs with
    | nil => simp at h
    | cons b bs => simp [rippleTrits, ih _ bs (by simpa using h)]

/-- R143: `ripple(a, b)`, the carry initialised to Zero. -/
def Word.ripple (a b : Word) : Word :=
  ⟨rippleTrits .Z a.trits b.trits, by
    rw [rippleTrits_length _ _ _ (by rw [a.length_eq, b.length_eq]), a.length_eq]⟩

namespace Machine

/-- R142: the result of an operation. SUB negates every digit of `b` and adds (R144); PASS_B copies `b` (R145). -/
def aluResult (op : AluOp) (a b : Word) : Word :=
  match op with
  | .add => a.ripple b
  | .sub => a.ripple b.neg
  | .passB => b

/-- R141 `set(a, b, op)`: replaces the three input latches and nothing else. -/
def AluLatches.set (l : AluLatches) (a b : Word) (op : AluOp) : AluLatches := { l with a := a, b := b, op := op }

/-- R141, R142 `execute()`: reads the input latches and writes `result` and `zeroFlag`. -/
def AluLatches.execute (l : AluLatches) : AluLatches :=
  { l with result := aluResult l.op l.a l.b, zeroFlag := zeroFlagOf (aluResult l.op l.a l.b) }

/-- R149 `reset()`: the initial contents again. No cycle calls it (R233). -/
def AluLatches.reset (_l : AluLatches) : AluLatches := AluLatches.initial

end Machine

end Sys2Proof
end

