-- ==== Sys2Proof/Machine/Signals.lean ====
section
/-! DEFINITION. The instruction decoder's control signals (spec/42_instruction_decoder.md, rules R120 to R133). -/

namespace Sys2Proof.Machine

/-- R120, R164: the operand-source mux's setting. -/
inductive AluSrc where
  | reg
  | imm
  deriving DecidableEq, Repr

/-- R120: the control-signal bundle, computed anew every cycle and no state. -/
structure ControlSignals where
  aluOp : AluOp
  aluSrc : AluSrc
  regWrite : Bool
  memRead : Bool
  memWrite : Bool
  memToReg : Bool
  branch : Bool
  jump : Bool
  deriving DecidableEq, Repr

/-- R122, R123: Add's row. -/
def addSignals : ControlSignals := ⟨.add, .reg, true, false, false, false, false, false⟩

/-- R122, R123: Sub's row. -/
def subSignals : ControlSignals := ⟨.sub, .reg, true, false, false, false, false, false⟩

/-- R122, R124: Addi's row. -/
def addiSignals : ControlSignals := ⟨.add, .imm, true, false, false, false, false, false⟩

/-- R122, R125: Lw's row, with `reg_write` set. DEDUCED (conflict C3; log 20, unsafe). -/
def lwSignals : ControlSignals := ⟨.add, .imm, true, true, false, true, false, false⟩

/-- R122, R126: Sw's row. -/
def swSignals : ControlSignals := ⟨.add, .imm, false, false, true, false, false, false⟩

/-- R122, R127: Beq's row. -/
def beqSignals : ControlSignals := ⟨.sub, .reg, false, false, false, false, true, false⟩

/-- R122, R128: Jal's row. DESIGN CHOICE for `aluOp` and `aluSrc` (the spec's D5; log 18, safe: `aluObserved` is false). -/
def jalSignals : ControlSignals := ⟨.add, .reg, true, false, false, false, false, true⟩

/-- R122, R129: Lui's row. -/
def luiSignals : ControlSignals := ⟨.passB, .imm, true, false, false, false, false, false⟩

/-- R122, R130: Nop's row. DESIGN CHOICE for `aluOp` and `aluSrc` (the spec's D5; log 18, safe: `aluObserved` is false). -/
def nopSignals : ControlSignals := ⟨.add, .reg, false, false, false, false, false, false⟩

/-- R121, R122: the decode table, a pure function of the variant. -/
def signalsOf (i : Instr) : ControlSignals :=
  match i with
  | .add _ _ _ => addSignals
  | .sub _ _ _ => subSignals
  | .addi _ _ _ => addiSignals
  | .lw _ _ _ => lwSignals
  | .sw _ _ _ => swSignals
  | .beq _ _ _ => beqSignals
  | .jal _ _ => jalSignals
  | .lui _ _ => luiSignals
  | .nop => nopSignals

/-- R128, R130: whether some enabled path of the cycle reads the ALU's result or zero flag: a memory access, a branch, or
a write back other than a link. False for Jal and Nop alone. -/
def ControlSignals.aluObserved (cs : ControlSignals) : Bool :=
  cs.memRead || cs.memWrite || cs.branch || (cs.regWrite && !cs.jump)

end Sys2Proof.Machine
end

