-- ==== Sys2Proof/Machine/Operands.lean ====
section
/-! DEFINITION. The operands of a cycle: the register indices and the immediate the decoder passes on, the second
operand's mux, and which registers an instruction reads and writes
(spec/42_instruction_decoder.md, rules R131 and R132; spec/44_cycle.md, rule R164; spec/10_state.md, rule R25). -/

namespace Sys2Proof.Machine

/-- R132: the rd index passed on. DESIGN CHOICE: an absent field passes index 0 (the spec's D5; log 18, safe). -/
def rdOf (i : Instr) : RegIndex :=
  match i with
  | .add rd _ _ => rd
  | .sub rd _ _ => rd
  | .addi rd _ _ => rd
  | .lw rd _ _ => rd
  | .sw _ _ _ => RegIndex.r0
  | .beq _ _ _ => RegIndex.r0
  | .jal rd _ => rd
  | .lui rd _ => rd
  | .nop => RegIndex.r0

/-- R132: the rs1 index passed on, 0 when the variant carries none (D5; log 18). -/
def rs1Of (i : Instr) : RegIndex :=
  match i with
  | .add _ rs1 _ => rs1
  | .sub _ rs1 _ => rs1
  | .addi _ rs1 _ => rs1
  | .lw _ rs1 _ => rs1
  | .sw rs1 _ _ => rs1
  | .beq rs1 _ _ => rs1
  | .jal _ _ => RegIndex.r0
  | .lui _ _ => RegIndex.r0
  | .nop => RegIndex.r0

/-- R132: the rs2 index passed on, 0 when the variant carries none (D5; log 18). -/
def rs2Of (i : Instr) : RegIndex :=
  match i with
  | .add _ _ rs2 => rs2
  | .sub _ _ rs2 => rs2
  | .addi _ _ _ => RegIndex.r0
  | .lw _ _ _ => RegIndex.r0
  | .sw _ rs2 _ => rs2
  | .beq _ rs2 _ => rs2
  | .jal _ _ => RegIndex.r0
  | .lui _ _ => RegIndex.r0
  | .nop => RegIndex.r0

/-- R131: the immediate passed on, before it is widened. DESIGN CHOICE: 0 for Add, Sub and Nop, which carry none (the
spec's D5; log 18, safe). -/
def immOf (i : Instr) : Int :=
  match i with
  | .add _ _ _ => 0
  | .sub _ _ _ => 0
  | .addi _ _ imm => imm
  | .lw _ _ imm => imm
  | .sw _ _ imm => imm
  | .beq _ _ imm => imm
  | .jal _ imm => imm
  | .lui _ imm => imm
  | .nop => 0

/-- R164: the ALU's second operand, by the operand-source mux. -/
def operandB (src : AluSrc) (imm vb2 : Word) : Word :=
  match src with
  | .reg => vb2
  | .imm => imm

/-- R25: the registers whose values an instruction reads. -/
def sourcesOf (i : Instr) : List RegIndex :=
  match i with
  | .add _ rs1 rs2 => [rs1, rs2]
  | .sub _ rs1 rs2 => [rs1, rs2]
  | .addi _ rs1 _ => [rs1]
  | .lw _ rs1 _ => [rs1]
  | .sw rs1 rs2 _ => [rs1, rs2]
  | .beq rs1 rs2 _ => [rs1, rs2]
  | .jal _ _ => []
  | .lui _ _ => []
  | .nop => []

/-- R25: the register an instruction writes, if it writes one (a write to `r0` is discarded, R23). -/
def destOf (i : Instr) : Option RegIndex :=
  match i with
  | .add rd _ _ => some rd
  | .sub rd _ _ => some rd
  | .addi rd _ _ => some rd
  | .lw rd _ _ => some rd
  | .sw _ _ _ => none
  | .beq _ _ _ => none
  | .jal rd _ => some rd
  | .lui rd _ => some rd
  | .nop => none

end Sys2Proof.Machine
end

