-- ==== Sys2Proof/Machine/Ops.lean ====
section
/-! DEFINITION. The named operations over registers, the PC and memory, and the execute phase of the one cycle
(spec/10_state.md, rules R21 to R28; spec/20_memory.md, rules R40 to R43; spec/44_cycle.md, rules R160 to R172).
The machine has no exception entry and no return from one (spec/60_exceptions.md, rules R200, R206, R207), so there is no
such operation. -/

namespace Sys2Proof.Machine

/-! ## The register file (R28) -/

/-- Where State keeps the register of a given index: slot `val + 13`. Indices run from -13 to 13 (R21), so the remainder
changes nothing. -/
def regSlot (i : RegIndex) : Fin 27 := Fin.ofNat 27 (i.val + 13).toNat

/-- R21 `read(i)`: the zero word for index 0 whatever was written, else the word held. -/
def State.readReg (s : State) (i : RegIndex) : Word := if i.val = 0 then Word.zero else s.regs[regSlot i]

/-- R23 `write(i, value)`: replaces the whole word; a write to index 0 is discarded. -/
def State.writeReg (s : State) (i : RegIndex) (v : Word) : State :=
  if i.val = 0 then s else { s with regs := s.regs.set (regSlot i) v }

/-- R26, R28 `read_pc()`. -/
def State.readPc (s : State) : Word := s.pc

/-- R26, R28 `write_pc(value)`: replaces the whole PC word. -/
def State.writePc (s : State) (target : Word) : State := { s with pc := target }

/-! ## The address space (R43) -/

/-- R41: what is held at an address; an unlisted address holds the zero word. -/
def Memory.read (m : Memory) (a : Int) : Word :=
  match m with
  | [] => Word.zero
  | (k, w) :: rest => if k = a then w else Memory.read rest a

/-- Puts a word at its place by address in a listing that holds nothing at that address. -/
def Memory.insert (m : Memory) (a : Int) (v : Word) : Memory :=
  match m with
  | [] => [(a, v)]
  | (k, w) :: rest => if a < k then (a, v) :: (k, w) :: rest else (k, w) :: Memory.insert rest a v

/-- R42: replaces the whole word at one address; the zero word, which an unlisted address reads as, is not listed. -/
def Memory.write (m : Memory) (a : Int) (v : Word) : Memory :=
  if v = Word.zero then m.filter (fun c => decide (c.1 ≠ a))
  else Memory.insert (m.filter (fun c => decide (c.1 ≠ a))) a v

/-- The canonical form: addresses strictly rising, inside `-M27 .. +M27` (R40), and no word equal to the zero word.
DEDUCED (R41, D14; log 23, safe). -/
abbrev Memory.wf (m : Memory) : Prop :=
  m.Pairwise (fun c d => c.1 < d.1) ∧ ∀ c ∈ m, c.2 ≠ Word.zero ∧ -Config.m27 ≤ c.1 ∧ c.1 ≤ Config.m27

/-- R41 `MemRead(addr, 1)`. -/
def State.readMem (s : State) (addr : Address) : Word := s.mem.read addr.val

/-- R42 `MemWrite(addr, 1, v)`. -/
def State.writeMem (s : State) (addr : Address) (v : Word) : State := { s with mem := s.mem.write addr.val v }

/-- R162: the fetch reads the word at the address equal to the PC. -/
def State.fetch (s : State) : Word := s.readMem s.readPc

/-- R176: the host places a memory image, address words with their value words, in the order given. -/
def State.loadImage (s : State) (image : List (Address × Word)) : State :=
  match image with
  | [] => s
  | (addr, v) :: rest => (s.writeMem addr v).loadImage rest

/-! ## The execute phase -/

/-- U4: the word whose trits are the given free trits. -/
def freeWord (trit : Nat → Trit) : Word := ⟨(List.range 27).map trit, by simp⟩

/-- R165: the arithmetic unit runs in every cycle, `set` and then `execute`. In a cycle that observes it, on the operands
of R164 (D6). In one that does not, those of Jal and Nop, on inputs that are free values: the spec says that the latch may
then hold any value (D6, U4). DESIGN CHOICE (log 3): the inputs are free, and the result and the flag follow from them, as
R165 has the unit run in every cycle. -/
def State.runAlu (s : State) (cs : ControlSignals) (va b : Word) : State :=
  if cs.aluObserved then { s with alu := (s.alu.set va b cs.aluOp).execute }
  else
    { s with
      alu := (s.alu.set (freeWord (Config.freeOperandA s.draws)) (freeWord (Config.freeOperandB s.draws))
        (Config.freeAluOp s.draws)).execute
      draws := s.draws + 1 }

/-- R166: the memory write, when enabled. -/
def State.memoryWrite (s : State) (cs : ControlSignals) (addr : Address) (v : Word) : State :=
  if cs.memWrite then s.writeMem addr v else s

/-- R167: when memory-read is enabled, the result to write is overridden by the word read. -/
def State.memoryRead (s : State) (cs : ControlSignals) (addr : Address) : Word :=
  if cs.memRead then s.readMem addr else addr

/-- R168: what is written back: the memory value first, then the link, then the ALU's result. The select is `mem_to_reg`.
DEDUCED (conflict C5: it equals `mem_read` for every variant; log 19, safe). -/
def writebackValue (cs : ControlSignals) (mv link res : Word) : Word :=
  if cs.memToReg then mv else if cs.jump then link else res

/-- R168: the write back, when enabled; a write to `r0` is discarded (R23). -/
def State.writeback (s : State) (cs : ControlSignals) (rd : RegIndex) (v : Word) : State :=
  if cs.regWrite then s.writeReg rd v else s

/-- R170: the PC's update: a jump, a branch taken on a Positive zero flag, else the next address. -/
def nextPc (cs : ControlSignals) (zf : Trit) (seq target : Word) : Word :=
  if cs.jump then target else if cs.branch && zf == .P then target else seq

/-- R161, phase 3, in its order: source reads (R163), operand mux (R164), ALU (R165), memory write (R166), memory read
(R167), write back (R168), PC update (R170). `seq` is `pc +w 1`, also the link (R169), and `target` is `pc +w imm`. -/
def State.execute (s : State) (cs : ControlSignals) (imm : Word) (rd rs1 rs2 : RegIndex) (seq target : Word) : State :=
  let va := s.readReg rs1
  let vb2 := s.readReg rs2
  let ran := s.runAlu cs va (operandB cs.aluSrc imm vb2)
  let stored := ran.memoryWrite cs ran.alu.result vb2
  let mv := stored.memoryRead cs ran.alu.result
  let written := stored.writeback cs rd (writebackValue cs mv seq ran.alu.result)
  written.writePc (nextPc cs ran.alu.zeroFlag seq target)

/-- R161 after decoding: the immediate output (R131), the two sums of the PC (R100, R171), and the execute phase.
The digit reductions of the three are checked (R203, D15; log 7, safe), and both sums are formed in every cycle (log 21,
safe). -/
def runCycle (cs : ControlSignals) (imm : Int) (rd rs1 rs2 : RegIndex) (s : State) : Host.Outcome State Fault Refusal :=
  match Word.ofImm? imm with
  | none => .fault .digitReduction
  | some immWord =>
    match s.readPc.add? Word.one with
    | none => .fault .digitReduction
    | some seq =>
      match s.readPc.add? immWord with
      | none => .fault .digitReduction
      | some target => .next (s.execute cs immWord rd rs1 rs2 seq target)

end Sys2Proof.Machine
end

