-- ==== Sys2Proof/Machine/Arithmetic.lean ====
section
/-! DEFINITION. The meanings of Add, Sub, Addi and Lui (spec/45_instructions.md, rules R180 to R182 and R187): the cycle
of R161 under their rows of the decode table R122; the cycle is the definition. -/

namespace Sys2Proof.Machine

/-- R180: `x[rd] <- x[rs1] + x[rs2]`. -/
def execAdd (rd rs1 rs2 : RegIndex) (s : State) : Host.Outcome State Fault Refusal :=
  runCycle addSignals 0 rd rs1 rs2 s

/-- R181: `x[rd] <- x[rs1] - x[rs2]`. -/
def execSub (rd rs1 rs2 : RegIndex) (s : State) : Host.Outcome State Fault Refusal :=
  runCycle subSignals 0 rd rs1 rs2 s

/-- R182: `x[rd] <- x[rs1] + imm`. -/
def execAddi (rd rs1 : RegIndex) (imm : Int) (s : State) : Host.Outcome State Fault Refusal :=
  runCycle addiSignals imm rd rs1 RegIndex.r0 s

/-- R187: `x[rd] <- imm`, unshifted (conflict C4; log 20). -/
def execLui (rd : RegIndex) (imm : Int) (s : State) : Host.Outcome State Fault Refusal :=
  runCycle luiSignals imm rd RegIndex.r0 RegIndex.r0 s

end Sys2Proof.Machine
end

