-- ==== Sys2Proof/Machine/LoadStore.lean ====
section
/-! DEFINITION. The meanings of Lw and Sw (spec/45_instructions.md, rules R183, R184 and R190): the cycle of R161 under
their rows of the decode table R122. -/

namespace Sys2Proof.Machine

/-- R183: `x[rd] <- mem(x[rs1] + imm)`. -/
def execLw (rd rs1 : RegIndex) (imm : Int) (s : State) : Host.Outcome State Fault Refusal :=
  runCycle lwSignals imm rd rs1 RegIndex.r0 s

/-- R184: `mem(x[rs1] + imm) <- x[rs2]`. -/
def execSw (rs1 rs2 : RegIndex) (imm : Int) (s : State) : Host.Outcome State Fault Refusal :=
  runCycle swSignals imm RegIndex.r0 rs1 rs2 s

end Sys2Proof.Machine
end

