-- ==== Sys2Proof/Machine/Transfer.lean ====
section
/-! DEFINITION. The meanings of Beq, Jal and Nop (spec/45_instructions.md, rules R185, R186, R188 and R189): the cycle of
R161 under their rows of the decode table R122. -/

namespace Sys2Proof.Machine

/-- R185: `pc <- pc + imm` when `x[rs1] = x[rs2]`, else `pc + 1`. -/
def execBeq (rs1 rs2 : RegIndex) (imm : Int) (s : State) : Host.Outcome State Fault Refusal :=
  runCycle beqSignals imm RegIndex.r0 rs1 rs2 s

/-- R186: `x[rd] <- pc + 1` and `pc <- pc + imm`. -/
def execJal (rd : RegIndex) (imm : Int) (s : State) : Host.Outcome State Fault Refusal :=
  runCycle jalSignals imm rd RegIndex.r0 RegIndex.r0 s

/-- R188: only the PC advances. -/
def execNop (s : State) : Host.Outcome State Fault Refusal :=
  runCycle nopSignals 0 RegIndex.r0 RegIndex.r0 RegIndex.r0 s

end Sys2Proof.Machine
end

