-- ==== Sys2Proof/Machine/Step.lean ====
section
/-! DEFINITION. One step is one call of `cycle()` (spec/44_cycle.md, rules R160 to R162): fetch, decode, execute. -/

namespace Sys2Proof.Machine

/-- R161, R162: fetch the word at the PC from the address space as it stands, classify it, execute it. -/
def step (s : State) : Host.Outcome State Fault Refusal := exec (decode s.fetch) s

/-- The host's pre-load of one table word at the PC (R176, R234; log 11 and log 12). Every instruction is one word (R60),
so `nbits` changes nothing. -/
def State.withFetchWord (s : State) (_nbits w : Nat) : State := s.writeMem s.readPc (tableWord w)

end Sys2Proof.Machine
end

