-- ==== Sys2Proof/Safety.lean ====
section
/-! DEFINITION. The terms the claims are made in: what two states have in common as a program sees them, what changed
between them, and the invariant every cycle keeps. -/

namespace Sys2Proof.Machine

/-- Every register reads as it did. -/
def SameRegisters (s t : State) : Prop := ∀ q : RegIndex, t.readReg q = s.readReg q

/-- Register `r` reads `v`, unless it is `r0`, which nothing changes (R23); every other register reads as it did. -/
def OnlyRegister (s t : State) (r : RegIndex) (v : Word) : Prop :=
  ∀ q : RegIndex, t.readReg q = if q = r ∧ r ≠ RegIndex.r0 then v else s.readReg q

/-- Every address reads as it did. -/
def SameMemory (s t : State) : Prop := ∀ addr : Address, t.readMem addr = s.readMem addr

/-- Address `a` reads `v` and every other address reads as it did (R42). -/
def OnlyWord (s t : State) (a : Address) (v : Word) : Prop :=
  ∀ addr : Address, t.readMem addr = if addr = a then v else s.readMem addr

/-- R20: the same architectural state, as every read of it shows. The latches and the counter of free values may differ. -/
def SameArchitecture (s t : State) : Prop := t.pc = s.pc ∧ SameRegisters s t ∧ SameMemory s t

/-- What a cycle leaves in the latches: its operands and operation, the operation's result and the zero flag (D6). -/
def Latched (t : State) (op : AluOp) (a b result : Word) : Prop :=
  t.alu.a = a ∧ t.alu.b = b ∧ t.alu.op = op ∧ t.alu.result = result ∧
    t.alu.zeroFlag = if result.val = 0 then .P else .Z

/-- R20 to R23, R40: memory is in its canonical form, and the slot of the hardwired register was never written. -/
def State.Inv (s : State) : Prop := s.mem.wf ∧ s.regs[regSlot RegIndex.r0] = Word.zero

end Sys2Proof.Machine
end

