-- ==== Sys2Proof/Certificates/Slice0/Obligations.lean ====
section
/-! DEFINITION. The statements for the provers, each with the rule of spec/ it formalises. `M27` is 3812798742493. -/

open Sys2Proof Sys2Proof.Machine

/-! ## The ternary word encoder/decoder (spec/40_ternary_word.md) -/

/-- R95: `fv_N` never fails; a value outside the range wraps modulo `3^N`. -/
def Obligations.FromValueNeverFailsAndWraps : Prop :=
  ∀ (n : Nat) (v : Int), ∃ f : TritField n, TritField.fromValue? n v = some f ∧ ((3 : Int) ^ n) ∣ (v - f.val)

/-- R96: `fv_N(v)` is the unique `N`-trit field congruent to `v` modulo `3^N`, and its value is the balanced residue. -/
def Obligations.FromValueIsTheBalancedResidue : Prop :=
  ∀ (n : Nat) (v : Int),
    (TritField.fromValue n v).val = TritField.bal n v ∧
      ∀ f : TritField n, ((3 : Int) ^ n) ∣ (v - f.val) → f = TritField.fromValue n v

/-- R97: the three round-trip laws of the encoder/decoder. -/
def Obligations.TernaryRoundTrips : Prop :=
  (∀ (n : Nat) (f : TritField n), TritField.fromValue n f.val = f) ∧
    (∀ (n : Nat) (x : Int), -Config.maxMagnitude n ≤ x → x ≤ Config.maxMagnitude n →
      (TritField.fromValue n x).val = x) ∧
    (∀ (n : Nat) (x : Int), -Config.maxMagnitude n ≤ x → x ≤ Config.maxMagnitude n →
      TritField.fromValue n (TritField.fromValue n x).val = TritField.fromValue n x)

/-- R98: negation flips each trit and is exact. -/
def Obligations.NegationIsExact : Prop :=
  ∀ (n : Nat) (f : TritField n), f.neg.val = -f.val ∧ ∀ i : Fin n, f.neg.t i = (f.t i).neg

/-- R99: widening a field of any width up to 27 keeps its trits and its value and puts `0` trits in the high positions. -/
def Obligations.WideningKeepsTheValue : Prop :=
  ∀ (n : Nat) (f : TritField n) (hn : n ≤ 27),
    (f.sext hn).val = f.val ∧ f.sext hn = TritField.fromValue 27 f.val ∧
      ∀ i : Fin 27, (f.sext hn).t i = if h : i.val < n then f.t ⟨i.val, h⟩ else .Z

/-- R101: equal trit by trit, and equal in value, are both equality. -/
def Obligations.FieldsAreEqualWhenTheirValuesAre : Prop :=
  ∀ (n : Nat) (f g : TritField n), (f = g ↔ ∀ i : Fin n, f.t i = g.t i) ∧ (f = g ↔ f.val = g.val)

/-- R102: the zero word has 27 `0` trits, is the only word of value 0, is what every unwritten register and address holds,
and decodes as Nop. -/
def Obligations.ZeroWordIsTheOnlyWordOfValueZero : Prop :=
  (∀ w : Word, w.val = 0 ↔ w = Word.zero) ∧ (∀ i : Fin 27, Word.zero.t i = .Z) ∧
    (∀ q : RegIndex, State.reset.readReg q = Word.zero) ∧ (∀ addr : Address, State.reset.readMem addr = Word.zero) ∧
    decode Word.zero = .nop

/-! ## The instruction word codec (spec/30_encoding.md) -/

/-- A few of the spec's own words (R78, 95_test_vectors.md L2.3, L2.6 and L2.7), written out trit by trit, position 0
first. -/
def Obligations.SpecWordsDecodeAsWritten : Prop :=
  decode ⟨[.P, .Z, .Z, .Z, .Z, .Z, .P, .Z, .P, .Z, .Z, .N, .P, .Z, .Z, .Z, .Z, .Z, .Z, .Z, .Z, .Z, .Z, .Z, .Z, .Z, .Z],
      rfl⟩ = .add (RegIndex.ofInt 3) (RegIndex.ofInt 1) (RegIndex.ofInt 2) ∧
    decode ⟨[.Z, .P, .Z, .Z, .Z, .P, .Z, .Z, .Z, .Z, .Z, .Z, .Z, .Z, .N, .N, .P, .Z, .Z, .Z, .Z, .Z, .Z, .Z, .Z, .Z, .Z],
      rfl⟩ = .addi (RegIndex.ofInt 1) RegIndex.r0 5 ∧
    decode ⟨[.N, .N, .P, .Z, .Z, .Z, .Z, .Z, .Z, .Z, .Z, .P, .Z, .Z, .P, .Z, .N, .P, .P, .Z, .Z, .Z, .Z, .Z, .Z, .Z, .Z],
      rfl⟩ = .sw RegIndex.r0 (RegIndex.ofInt 1) 100 ∧
    decode ⟨[.P, .N, .P, .Z, .Z, .N, .Z, .Z, .Z, .Z, .Z, .Z, .Z, .Z, .N, .Z, .N, .Z, .Z, .Z, .Z, .Z, .Z, .Z, .Z, .Z, .Z],
      rfl⟩ = .jal (RegIndex.ofInt (-1)) (-10) ∧
    decode ⟨[.Z, .Z, .P, .Z, .Z, .Z, .P, .Z, .P, .Z, .Z, .N, .P, .Z, .N, .N, .P, .Z, .Z, .Z, .Z, .Z, .Z, .Z, .Z, .Z, .Z],
      rfl⟩ = .nop

/-- R72 (1): decoding an encoded well-formed instruction gives it back. -/
def Obligations.DecodeOfEncodeIsTheInstruction : Prop :=
  ∀ i : Instr, i.wellFormed = true → decode (encode i) = i

/-- R71, R72 (2): with any immediate at all, the decoded immediate is `bal_13(imm)` and nothing else changes. -/
def Obligations.DecodeOfEncodeWrapsTheImmediate : Prop :=
  ∀ i : Instr, decode (encode i) = i.wrapImm

/-- R72 (3): encoding a decoded word gives it back exactly when the fields its instruction does not use are `0`, a Nop's
opcode among them. -/
def Obligations.EncodeOfDecodeIsTheWord : Prop :=
  ∀ w : Word, encode (decode w) = w ↔
    ((w.opcode = 1 ∨ w.opcode = 2 → w.immField = TritField.zero 13) ∧
      (w.opcode = 3 ∨ w.opcode = 4 → w.rs2 = RegIndex.r0) ∧
      (w.opcode = 5 ∨ w.opcode = 6 → w.rd = RegIndex.r0) ∧
      (w.opcode = 7 ∨ w.opcode = 8 → w.rs1 = RegIndex.r0 ∧ w.rs2 = RegIndex.r0) ∧
      (w.opcode < 1 ∨ 8 < w.opcode → w = Word.zero))

/-- R64: a word's value is the weighted sum of its fields' values. -/
def Obligations.WordValueIsTheWeightedFieldSum : Prop :=
  ∀ w : Word, w.val = w.opcode + 243 * w.rd.val + 6561 * w.rs1.val + 177147 * w.rs2.val + 4782969 * w.imm

/-- R64, R67 to R70: the word whose value has the given field values decodes by its opcode alone to the variant that
carries the fields R62 gives it, whatever the other fields hold. -/
def Obligations.DecodeReadsTheFieldValues : Prop :=
  ∀ (w : Word) (op imm : Int) (rd rs1 rs2 : RegIndex), -121 ≤ op → op ≤ 121 → Instr.immInRange imm →
    w.val = op + 243 * rd.val + 6561 * rs1.val + 177147 * rs2.val + 4782969 * imm →
    decode w =
      if op = 1 then .add rd rs1 rs2 else if op = 2 then .sub rd rs1 rs2 else if op = 3 then .addi rd rs1 imm
      else if op = 4 then .lw rd rs1 imm else if op = 5 then .sw rs1 rs2 imm else if op = 6 then .beq rs1 rs2 imm
      else if op = 7 then .jal rd imm else if op = 8 then .lui rd imm else .nop

/-! ## The arithmetic unit (spec/43_alu.md) -/

/-- R147: the trit-serial ripple of full adders is integer addition wrapped modulo `3^27`, the same function as `+w`
(R100); SUB wraps the difference; PASS_B is the second operand. -/
def Obligations.RippleIsWrappedAddition : Prop :=
  ∀ a b : Word, a.ripple b = a.add b ∧ (aluResult .add a b).val = TritField.bal 27 (a.val + b.val) ∧
    (aluResult .sub a b).val = TritField.bal 27 (a.val - b.val) ∧ (aluResult .passB a b).val = b.val

/-- R148: the zero flag is Positive exactly when the result's value is 0, and for SUB exactly when the operands are equal,
pairs whose difference overflows included. -/
def Obligations.ZeroFlagOfDifferenceTestsEquality : Prop :=
  ∀ (l : AluLatches) (a b : Word),
    (∀ op : AluOp, (l.set a b op).execute.zeroFlag = if (l.set a b op).execute.result.val = 0 then .P else .Z) ∧
      ((l.set a b .sub).execute.zeroFlag = .P ↔ a = b)

/-- R146 with R141 and R165: after every cycle the zero flag is Positive when every digit of the unit's latched result is
Zero, else Zero. That the latches are there to be seen after a cycle is log 2. After Jal and Nop the spec lets them hold any
value (D6, U4), and that the flag follows the result there too is the model's own choice, log 3. -/
def Obligations.EveryCycleSetsTheZeroFlag : Prop :=
  ∀ s t : State, step s = .next t → t.alu.zeroFlag = if ∀ i : Fin 27, t.alu.result.t i = .Z then .P else .Z

/-! ## The nine instructions (spec/45_instructions.md)

Each states that the instruction completes, its result, the PC, and its frame: every other register, every other word of
memory. What `+w` does to a PC that passes `±M27` is the spec's own decision D2 (R171, log 6). The contents of the latches
after the cycle are those of the spec's decision D6 (log 2); after Jal and Nop they are any value, so nothing is said. -/

/-- R180: Add. -/
def Obligations.AddWritesTheSum : Prop :=
  ∀ (rd rs1 rs2 : RegIndex) (s : State), ∃ t : State, exec (.add rd rs1 rs2) s = .next t ∧
    OnlyRegister s t rd ((s.readReg rs1).ripple (s.readReg rs2)) ∧
    (s.readReg rs1).ripple (s.readReg rs2) = TritField.fromValue 27 ((s.readReg rs1).val + (s.readReg rs2).val) ∧
    t.pc = TritField.fromValue 27 (s.pc.val + 1) ∧ SameMemory s t ∧
    Latched t .add (s.readReg rs1) (s.readReg rs2) ((s.readReg rs1).ripple (s.readReg rs2))

/-- R181: Sub; the zero flag is Positive exactly when the two registers are equal. -/
def Obligations.SubWritesTheDifference : Prop :=
  ∀ (rd rs1 rs2 : RegIndex) (s : State), ∃ t : State, exec (.sub rd rs1 rs2) s = .next t ∧
    OnlyRegister s t rd ((s.readReg rs1).ripple (s.readReg rs2).neg) ∧
    (s.readReg rs1).ripple (s.readReg rs2).neg =
      TritField.fromValue 27 ((s.readReg rs1).val - (s.readReg rs2).val) ∧
    t.pc = TritField.fromValue 27 (s.pc.val + 1) ∧ SameMemory s t ∧
    Latched t .sub (s.readReg rs1) (s.readReg rs2) ((s.readReg rs1).ripple (s.readReg rs2).neg) ∧
    (t.alu.zeroFlag = .P ↔ s.readReg rs1 = s.readReg rs2)

/-- R182: Addi. -/
def Obligations.AddiWritesTheSum : Prop :=
  ∀ (rd rs1 : RegIndex) (imm : Int) (s : State), Instr.immInRange imm → ∃ t : State,
    exec (.addi rd rs1 imm) s = .next t ∧
    OnlyRegister s t rd ((s.readReg rs1).ripple (Word.ofImm imm)) ∧
    (s.readReg rs1).ripple (Word.ofImm imm) = TritField.fromValue 27 ((s.readReg rs1).val + imm) ∧
    t.pc = TritField.fromValue 27 (s.pc.val + 1) ∧ SameMemory s t ∧
    Latched t .add (s.readReg rs1) (Word.ofImm imm) ((s.readReg rs1).ripple (Word.ofImm imm))

/-- R183: Lw; the zero flag sees the address, not the loaded word. -/
def Obligations.LwLoadsTheWord : Prop :=
  ∀ (rd rs1 : RegIndex) (imm : Int) (s : State), Instr.immInRange imm → ∃ t : State,
    exec (.lw rd rs1 imm) s = .next t ∧
    OnlyRegister s t rd (s.readMem ((s.readReg rs1).ripple (Word.ofImm imm))) ∧
    (s.readReg rs1).ripple (Word.ofImm imm) = TritField.fromValue 27 ((s.readReg rs1).val + imm) ∧
    t.pc = TritField.fromValue 27 (s.pc.val + 1) ∧ SameMemory s t ∧
    Latched t .add (s.readReg rs1) (Word.ofImm imm) ((s.readReg rs1).ripple (Word.ofImm imm))

/-- R184: Sw; the address is the ALU's sum of the base and the immediate. -/
def Obligations.SwStoresTheWord : Prop :=
  ∀ (rs1 rs2 : RegIndex) (imm : Int) (s : State), Instr.immInRange imm → ∃ t : State,
    exec (.sw rs1 rs2 imm) s = .next t ∧
    OnlyWord s t ((s.readReg rs1).ripple (Word.ofImm imm)) (s.readReg rs2) ∧
    (s.readReg rs1).ripple (Word.ofImm imm) = TritField.fromValue 27 ((s.readReg rs1).val + imm) ∧
    t.pc = TritField.fromValue 27 (s.pc.val + 1) ∧ SameRegisters s t ∧
    Latched t .add (s.readReg rs1) (Word.ofImm imm) ((s.readReg rs1).ripple (Word.ofImm imm))

/-- R185: Beq is taken exactly on equal words. -/
def Obligations.BeqBranchesOnEquality : Prop :=
  ∀ (rs1 rs2 : RegIndex) (imm : Int) (s : State), Instr.immInRange imm → ∃ t : State,
    exec (.beq rs1 rs2 imm) s = .next t ∧
    (t.pc = if s.readReg rs1 = s.readReg rs2 then TritField.fromValue 27 (s.pc.val + imm)
      else TritField.fromValue 27 (s.pc.val + 1)) ∧
    SameRegisters s t ∧ SameMemory s t ∧
    Latched t .sub (s.readReg rs1) (s.readReg rs2) ((s.readReg rs1).ripple (s.readReg rs2).neg) ∧
    (t.alu.zeroFlag = .P ↔ s.readReg rs1 = s.readReg rs2)

/-- R186: Jal writes the address after itself and jumps relative to itself. -/
def Obligations.JalLinksAndJumps : Prop :=
  ∀ (rd : RegIndex) (imm : Int) (s : State), Instr.immInRange imm → ∃ t : State,
    exec (.jal rd imm) s = .next t ∧ OnlyRegister s t rd (TritField.fromValue 27 (s.pc.val + 1)) ∧
    t.pc = TritField.fromValue 27 (s.pc.val + imm) ∧ SameMemory s t

/-- R187: Lui writes the immediate's value, unshifted. The first latch holds the zero word, by the spec's D5. -/
def Obligations.LuiWritesTheImmediate : Prop :=
  ∀ (rd : RegIndex) (imm : Int) (s : State), Instr.immInRange imm → ∃ t : State,
    exec (.lui rd imm) s = .next t ∧ OnlyRegister s t rd (Word.ofImm imm) ∧
    Word.ofImm imm = TritField.fromValue 27 imm ∧ (Word.ofImm imm).val = imm ∧
    t.pc = TritField.fromValue 27 (s.pc.val + 1) ∧ SameMemory s t ∧
    Latched t .passB Word.zero (Word.ofImm imm) (Word.ofImm imm)

/-- R188: Nop advances the PC and changes nothing else of the architectural state. -/
def Obligations.NopOnlyAdvances : Prop :=
  ∀ s : State, ∃ t : State, exec .nop s = .next t ∧ t.pc = TritField.fromValue 27 (s.pc.val + 1) ∧
    SameRegisters s t ∧ SameMemory s t

/-! ## The cycle (spec/44_cycle.md) -/

/-- R161, R162: a step runs the instruction that the word at the PC decodes to; a well-formed instruction's own word runs
that instruction. The PC moves inside `exec`. -/
def Obligations.StepRunsTheDecodedInstruction : Prop :=
  (∀ s : State, step s = exec (decode (s.readMem s.pc)) s) ∧
    ∀ (s : State) (i : Instr), i.wellFormed = true → s.readMem s.pc = encode i → step s = exec i s

/-- The model's own `withFetchWord` (log 11, 12): it changes the word at the PC and nothing else, and the next step runs
that word's instruction. -/
def Obligations.PlacedWordRunsNext : Prop :=
  ∀ (s : State) (nbits w : Nat) (i : Instr), decodeTableWord nbits w = some i →
    step (s.withFetchWord nbits w) = exec i (s.withFetchWord nbits w) ∧ (s.withFetchWord nbits w).pc = s.pc ∧
      SameRegisters s (s.withFetchWord nbits w) ∧ OnlyWord s (s.withFetchWord nbits w) s.pc (tableWord w)

/-- R68: every word whose opcode lies outside `1 .. 8` runs as Nop. -/
def Obligations.UnassignedOpcodesRunAsNop : Prop :=
  ∀ s : State, (s.fetch.opcode < 1 ∨ 8 < s.fetch.opcode) → ∃ t : State, step s = .next t ∧
    t.pc = TritField.fromValue 27 (s.pc.val + 1) ∧ SameRegisters s t ∧ SameMemory s t

/-- R175: a cycle is total on every state, and so is every run of n cycles (R177): no fault, no refusal, no stop. -/
def Obligations.CycleIsTotal : Prop :=
  (∀ s : State, ∃ t : State, step s = .next t) ∧
    ∀ (n : Nat) (s : State), ∃ t : State, Sys2Proof.core.run n s = .next t

/-- R173: identical registers, memory and PC give identical registers, memory and PC, whatever the latches and the counter
of free values hold, in one cycle and in every run of n cycles. -/
def Obligations.ArchitectureIsDeterministic : Prop :=
  (∀ s u : State, SameArchitecture s u → ∃ t v : State, step s = .next t ∧ step u = .next v ∧ SameArchitecture t v) ∧
    ∀ (n : Nat) (s u : State), SameArchitecture s u → ∃ t v : State,
      Sys2Proof.core.run n s = .next t ∧ Sys2Proof.core.run n u = .next v ∧ SameArchitecture t v

/-- R166, for every setting of the control signals: with memory-write enabled the second source register's value, as it
stood at the start of the cycle, is written at the arithmetic result, and for Sw that is `x[rs1] +w imm`. -/
def Obligations.MemoryWriteGoesToTheResult : Prop :=
  (∀ (cs : ControlSignals) (imm : Int) (rd rs1 rs2 : RegIndex) (s : State), ∃ t : State,
    runCycle cs imm rd rs1 rs2 s = .next t ∧
      (cs.memWrite = true → OnlyWord s t t.alu.result (s.readReg rs2)) ∧ (cs.memWrite = false → SameMemory s t)) ∧
    ∀ (rs1 rs2 : RegIndex) (imm : Int) (s : State), Instr.immInRange imm → ∃ t : State,
      exec (.sw rs1 rs2 imm) s = .next t ∧ t.alu.result = TritField.fromValue 27 ((s.readReg rs1).val + imm)

/-- R133 (5), R166: only a Sw changes memory, only at its address, and to the value of its second source. -/
def Obligations.OnlySwChangesMemory : Prop :=
  ∀ (s t : State) (addr : Address), step s = .next t → t.readMem addr ≠ s.readMem addr →
    ∃ (rs1 rs2 : RegIndex) (imm : Int), decode s.fetch = .sw rs1 rs2 imm ∧
      addr = (s.readReg rs1).ripple (Word.ofImm imm) ∧ t.readMem addr = s.readReg rs2

/-- R23, R25: only the destination register of the instruction changes, and never `r0`. -/
def Obligations.OnlyTheDestinationChanges : Prop :=
  ∀ (s t : State) (q : RegIndex), step s = .next t → t.readReg q ≠ s.readReg q →
    destOf (decode s.fetch) = some q ∧ q ≠ RegIndex.r0

/-- R25: what an instruction does to the PC, to memory and to its destination depends on no register but its sources. -/
def Obligations.OnlyTheSourcesMatter : Prop :=
  ∀ (i : Instr) (s u : State), u.pc = s.pc → SameMemory s u →
    (∀ q ∈ sourcesOf i, u.readReg q = s.readReg q) → ∃ t v : State, exec i s = .next t ∧ exec i u = .next v ∧
      v.pc = t.pc ∧ SameMemory t v ∧ ∀ q, destOf i = some q → v.readReg q = t.readReg q

/-- R170, R189: only Jal, and Beq on equal operands, leave the sequence of addresses, and only by their own immediate. -/
def Obligations.OnlyTransfersLeaveTheSequence : Prop :=
  ∀ s t : State, step s = .next t → t.pc ≠ s.pc.add Word.one →
    (∃ (rd : RegIndex) (imm : Int), decode s.fetch = .jal rd imm ∧ t.pc = s.pc.add (Word.ofImm imm)) ∨
      ∃ (rs1 rs2 : RegIndex) (imm : Int), decode s.fetch = .beq rs1 rs2 imm ∧ s.readReg rs1 = s.readReg rs2 ∧
        t.pc = s.pc.add (Word.ofImm imm)

/-- R187: `Lui rd, imm` and `Addi rd, r0, imm` have the same effect. -/
def Obligations.LuiIsAddiFromZero : Prop :=
  ∀ (rd : RegIndex) (imm : Int) (s : State), Instr.immInRange imm → ∃ t u : State,
    exec (.lui rd imm) s = .next t ∧ exec (.addi rd RegIndex.r0 imm) s = .next u ∧ SameArchitecture t u

/-- R42, R51: a load from the address just stored to, through the same base and offset, gives the stored word. -/
def Obligations.LoadAfterStoreGivesTheWord : Prop :=
  ∀ (rd rs1 rs2 : RegIndex) (imm : Int) (s : State), Instr.immInRange imm → ∃ t u : State,
    exec (.sw rs1 rs2 imm) s = .next t ∧ exec (.lw rd rs1 imm) t = .next u ∧
      u.readReg rd = if rd = RegIndex.r0 then Word.zero else s.readReg rs2

/-- R54: when the PC reaches the address a Sw wrote in the cycle before, the step runs the instruction the stored word
decodes to. -/
def Obligations.StoredWordIsTheNextFetch : Prop :=
  ∀ (rs1 rs2 : RegIndex) (imm : Int) (s t : State), Instr.immInRange imm → exec (.sw rs1 rs2 imm) s = .next t →
    t.pc = (s.readReg rs1).ripple (Word.ofImm imm) → step t = exec (decode (s.readReg rs2)) t

/-- R238: from a state whose next instruction is `Jal r0,0`, or a Beq of a register with itself to itself, every run leaves
the whole architectural state unchanged. -/
def Obligations.SelfJumpIsAFixedPoint : Prop :=
  ∀ (n : Nat) (s : State), (decode s.fetch = .jal RegIndex.r0 0 ∨ ∃ r, decode s.fetch = .beq r r 0) →
    ∃ t : State, Sys2Proof.core.run n s = .next t ∧ SameArchitecture s t

/-! ## State, reset and the host (spec/10_state.md, spec/20_memory.md, spec/70_reset_and_hazards.md) -/

/-- R20 to R23, R40: every cycle keeps the invariant. -/
def Obligations.StepKeepsTheInvariant : Prop :=
  ∀ s t : State, s.Inv → step s = .next t → t.Inv

/-- The state after building the unit meets the invariant. -/
def Obligations.ResetMeetsTheInvariant : Prop := State.reset.Inv

/-- R33, R231: the state after building; the PC's value is the spec's decision D7 (log 10), the latches' its D18 (log 5). -/
def Obligations.ResetStateIsAllZero : Prop :=
  State.reset.pc = Word.zero ∧ (∀ q : RegIndex, State.reset.readReg q = Word.zero) ∧
    (∀ addr : Address, State.reset.readMem addr = Word.zero) ∧ State.reset.alu = ⟨Word.zero, Word.zero, .add, Word.zero, .Z⟩

/-- R22, R41, D14: states that meet the invariant and read alike are the same data, so the canonical forms lose nothing. -/
def Obligations.ReadsDetermineTheState : Prop :=
  ∀ s t : State, s.Inv → t.Inv → SameArchitecture s t → t.pc = s.pc ∧ t.regs = s.regs ∧ t.mem = s.mem

/-- R176: after the host places an image whose addresses are distinct, each of its words is read at its address, and
nothing else has changed. -/
def Obligations.PlacedImageIsRead : Prop :=
  ∀ (image : List (Address × Word)) (s : State), (image.map Prod.fst).Nodup →
    (∀ c ∈ image, (s.loadImage image).readMem c.1 = c.2) ∧
      (∀ addr : Address, addr ∉ image.map Prod.fst → (s.loadImage image).readMem addr = s.readMem addr) ∧
      (s.loadImage image).pc = s.pc ∧ SameRegisters s (s.loadImage image)
end

