-- ==== Sys2Proof/Laws/State.lean ====
section
/-! SUPPORT. One lemma per field per update of State, so that no later proof unfolds a record update. -/

namespace Sys2Proof.Machine

variable (s : State) (w : Word) (r : RegIndex) (a : Address) (cs : ControlSignals) (va b : Word)

@[simp] theorem readPc_eq : s.readPc = s.pc := rfl

@[simp] theorem writePc_pc : (s.writePc w).pc = w := rfl
@[simp] theorem writePc_regs : (s.writePc w).regs = s.regs := rfl
@[simp] theorem writePc_mem : (s.writePc w).mem = s.mem := rfl
@[simp] theorem writePc_alu : (s.writePc w).alu = s.alu := rfl
@[simp] theorem writePc_draws : (s.writePc w).draws = s.draws := rfl

@[simp] theorem writeMem_pc : (s.writeMem a w).pc = s.pc := rfl
@[simp] theorem writeMem_regs : (s.writeMem a w).regs = s.regs := rfl
@[simp] theorem writeMem_mem : (s.writeMem a w).mem = s.mem.write a.val w := rfl
@[simp] theorem writeMem_alu : (s.writeMem a w).alu = s.alu := rfl
@[simp] theorem writeMem_draws : (s.writeMem a w).draws = s.draws := rfl

@[simp] theorem writeReg_pc : (s.writeReg r w).pc = s.pc := by unfold State.writeReg; split <;> rfl
@[simp] theorem writeReg_mem : (s.writeReg r w).mem = s.mem := by unfold State.writeReg; split <;> rfl
@[simp] theorem writeReg_alu : (s.writeReg r w).alu = s.alu := by unfold State.writeReg; split <;> rfl
@[simp] theorem writeReg_draws : (s.writeReg r w).draws = s.draws := by unfold State.writeReg; split <;> rfl

@[simp] theorem runAlu_pc : (s.runAlu cs va b).pc = s.pc := by unfold State.runAlu; split <;> rfl
@[simp] theorem runAlu_regs : (s.runAlu cs va b).regs = s.regs := by unfold State.runAlu; split <;> rfl
@[simp] theorem runAlu_mem : (s.runAlu cs va b).mem = s.mem := by unfold State.runAlu; split <;> rfl

@[simp] theorem memoryWrite_pc : (s.memoryWrite cs a w).pc = s.pc := by unfold State.memoryWrite; split <;> rfl
@[simp] theorem memoryWrite_regs : (s.memoryWrite cs a w).regs = s.regs := by unfold State.memoryWrite; split <;> rfl
@[simp] theorem memoryWrite_alu : (s.memoryWrite cs a w).alu = s.alu := by unfold State.memoryWrite; split <;> rfl
@[simp] theorem memoryWrite_draws : (s.memoryWrite cs a w).draws = s.draws := by
  unfold State.memoryWrite; split <;> rfl

@[simp] theorem writeback_pc : (s.writeback cs r w).pc = s.pc := by unfold State.writeback; split <;> simp
@[simp] theorem writeback_mem : (s.writeback cs r w).mem = s.mem := by unfold State.writeback; split <;> simp
@[simp] theorem writeback_alu : (s.writeback cs r w).alu = s.alu := by unfold State.writeback; split <;> simp
@[simp] theorem writeback_draws : (s.writeback cs r w).draws = s.draws := by
  unfold State.writeback; split <;> simp

/-- A read of a register depends on the register file alone. -/
theorem readReg_congr {s t : State} (h : t.regs = s.regs) (q : RegIndex) : t.readReg q = s.readReg q := by
  simp [State.readReg, h]

/-- A read of memory depends on memory alone. -/
theorem readMem_congr {s t : State} (h : t.mem = s.mem) (addr : Address) : t.readMem addr = s.readMem addr := by
  simp [State.readMem, h]

@[simp] theorem writePc_readReg (q : RegIndex) : (s.writePc w).readReg q = s.readReg q := rfl
@[simp] theorem writePc_readMem (addr : Address) : (s.writePc w).readMem addr = s.readMem addr := rfl
@[simp] theorem writeMem_readReg (q : RegIndex) : (s.writeMem a w).readReg q = s.readReg q := rfl
@[simp] theorem writeReg_readMem (addr : Address) : (s.writeReg r w).readMem addr = s.readMem addr :=
  readMem_congr (writeReg_mem s w r) addr
@[simp] theorem runAlu_readReg (q : RegIndex) : (s.runAlu cs va b).readReg q = s.readReg q :=
  readReg_congr (runAlu_regs s cs va b) q
@[simp] theorem runAlu_readMem (addr : Address) : (s.runAlu cs va b).readMem addr = s.readMem addr :=
  readMem_congr (runAlu_mem s cs va b) addr

end Sys2Proof.Machine
end

