-- ==== Sys2Proof/Laws/Ternary.lean ====
section
/-! SUPPORT. The small lemmas of the ternary word encoder/decoder and of the circuit primitives
(spec/40_ternary_word.md, spec/41_circuit_primitives.md). -/

namespace Sys2Proof

/-! ## Trits -/

@[simp] theorem Trit.toInt_neg (d : Trit) : d.neg.toInt = -d.toInt := by cases d <;> rfl

theorem Trit.toInt_bounds (d : Trit) : -1 ≤ d.toInt ∧ d.toInt ≤ 1 := by cases d <;> decide

theorem Trit.toInt_inj {c d : Trit} : c.toInt = d.toInt ↔ c = d := by cases c <;> cases d <;> decide

theorem Trit.ofInt?_toInt (d : Trit) : Trit.ofInt? d.toInt = some d := by cases d <;> rfl

/-- R111: no value is lost in the full adder. -/
theorem fullTritAdder_value (a b c : Trit) :
    a.toInt + b.toInt + c.toInt = (fullTritAdder a b c).1.toInt + 3 * (fullTritAdder a b c).2.toInt := by
  cases a <;> cases b <;> cases c <;> rfl

/-- R113: the minimum gate returns the lesser operand in the order of R90. -/
theorem minimum_toInt (a b : Trit) : (minimum a b).toInt = min a.toInt b.toInt := by cases a <;> cases b <;> rfl

/-! ## Bare trits -/

@[simp] theorem valueOfTrits_nil : valueOfTrits [] = 0 := rfl

@[simp] theorem valueOfTrits_cons (d : Trit) (ds : List Trit) :
    valueOfTrits (d :: ds) = d.toInt + 3 * valueOfTrits ds := rfl

/-- A field placed above another weighs `3` to the power of the lower one's width. -/
theorem valueOfTrits_append (ds es : List Trit) :
    valueOfTrits (ds ++ es) = valueOfTrits ds + 3 ^ ds.length * valueOfTrits es := by
  induction ds with
  | nil => simp
  | cons d ds ih => simp only [List.cons_append, valueOfTrits_cons, ih, List.length_cons, pow_succ]; ring

@[simp] theorem valueOfTrits_zeros (n : Nat) : valueOfTrits (List.replicate n .Z) = 0 := by
  induction n with
  | zero => rfl
  | succ n ih => simp [List.replicate_succ, ih, Trit.toInt]

/-- Twice the largest magnitude is one less than the number of words of that width. -/
theorem two_mul_maxMagnitude (n : Nat) : 2 * Config.maxMagnitude n = 3 ^ n - 1 := by
  have hodd : 3 ^ n % 2 = 1 := by
    induction n with
    | zero => rfl
    | succ n ih => rw [pow_succ]; omega
  have hpos : 0 < 3 ^ n := Nat.pow_pos (by decide)
  have hcast : ((3 ^ n : Nat) : Int) = 3 ^ n := by simp
  unfold Config.maxMagnitude
  omega

/-- R93: the range of `val`, on bare trits. -/
theorem valueOfTrits_bounds (ds : List Trit) :
    -Config.maxMagnitude ds.length ≤ valueOfTrits ds ∧ valueOfTrits ds ≤ Config.maxMagnitude ds.length := by
  induction ds with
  | nil => decide
  | cons d ds ih =>
    have h1 := two_mul_maxMagnitude ds.length
    have h2 := two_mul_maxMagnitude (ds.length + 1)
    have hd := d.toInt_bounds
    have hp : (3 : Int) ^ (ds.length + 1) = 3 * 3 ^ ds.length := by rw [pow_succ]; ring
    simp only [valueOfTrits_cons, List.length_cons]
    omega

/-! ## Fields -/

namespace TritField

@[simp] theorem cons_trits {n : Nat} (d : Trit) (f : TritField n) : (cons d f).trits = d :: f.trits := rfl

@[simp] theorem sext_trits {n : Nat} (f : TritField n) (h : n ≤ 27) :
    (f.sext h).trits = f.trits ++ List.replicate (27 - n) .Z := rfl

@[simp] theorem val_cons {n : Nat} (d : Trit) (f : TritField n) : (cons d f).val = d.toInt + 3 * f.val := rfl

@[simp] theorem val_zero (n : Nat) : (zero n).val = 0 := valueOfTrits_zeros n

theorem ext_trits {n : Nat} {f g : TritField n} (h : f.trits = g.trits) : f = g := by
  cases f; cases g; simpa using h

/-- R93: `val` lies in `-M_N .. +M_N`. -/
theorem val_bounds {n : Nat} (f : TritField n) : -Config.maxMagnitude n ≤ f.val ∧ f.val ≤ Config.maxMagnitude n := by
  have h := valueOfTrits_bounds f.trits
  rwa [f.length_eq] at h

/-- Every field of width `n + 1` is a lowest trit below a field of width `n`. -/
theorem exists_cons {n : Nat} (f : TritField (n + 1)) : ∃ d g, f = cons d g := by
  obtain ⟨trits, hlen⟩ := f
  cases trits with
  | nil => simp at hlen
  | cons d ds => exact ⟨d, ⟨ds, by simpa using hlen⟩, rfl⟩

theorem eq_nil (f : TritField 0) : f = ⟨[], rfl⟩ := ext_trits (List.eq_nil_of_length_eq_zero f.length_eq)

/-- The check of R203 never fails, so the checked encoder answers what the total one does. -/
@[simp] theorem fromValue?_eq (n : Nat) (x : Int) : fromValue? n x = some (fromValue n x) := by
  simp [fromValue]

/-- R94, one position: the lowest trit and what is carried on make up the value. -/
theorem fromValue_succ (n : Nat) (x : Int) :
    ∃ (d : Trit) (q : Int), fromValue (n + 1) x = cons d (fromValue n q) ∧ x = d.toInt + 3 * q := by
  obtain ⟨⟨d, hd, hval⟩, hsum⟩ := digitStep_spec x
  refine ⟨d, (digitStep x).2, ?_, by rw [hval]; exact hsum⟩
  have h : fromValue? (n + 1) x = some (cons d (fromValue n (digitStep x).2)) := by
    simp [fromValue?, hd]
  rw [fromValue?_eq] at h
  exact Option.some.inj h

/-- R93 as the sum over positions: `Σ int(t[i]) · 3^i`. -/
theorem val_eq_sum {n : Nat} (f : TritField n) : f.val = ∑ i : Fin n, (f.t i).toInt * 3 ^ (i : Nat) := by
  induction n with
  | zero => rw [f.eq_nil]; rfl
  | succ n ih =>
    obtain ⟨d, g, rfl⟩ := f.exists_cons
    rw [Fin.sum_univ_succ, val_cons, ih g, Finset.mul_sum]
    have h0 : (cons d g).t 0 = d := rfl
    have hs : ∀ i : Fin n, (cons d g).t i.succ = g.t i := fun _ => rfl
    simp only [h0, hs, Fin.val_zero, pow_zero, mul_one, Fin.val_succ, pow_succ]
    congr 1
    exact Finset.sum_congr rfl (fun i _ => by ring)

end TritField

/-- The zero word is the value 0. -/
@[simp] theorem Word.val_zero : Word.zero.val = 0 := TritField.val_zero 27

@[simp] theorem Word.val_one : Word.one.val = 1 := by decide

@[simp] theorem RegIndex.val_r0 : RegIndex.r0.val = 0 := TritField.val_zero 3

/-- R21: register indices run from -13 to 13. -/
theorem RegIndex.val_bounds (r : RegIndex) : -13 ≤ r.val ∧ r.val ≤ 13 := TritField.val_bounds r

/-- R40: addresses run from `-M27` to `M27`. -/
theorem Word.val_bounds (w : Word) : -Config.m27 ≤ w.val ∧ w.val ≤ Config.m27 := TritField.val_bounds w

@[simp] theorem Word.add?_eq (a b : Word) : a.add? b = some (a.add b) := TritField.fromValue?_eq _ _

@[simp] theorem Word.ofImm?_eq (imm : Int) : Word.ofImm? imm = some (Word.ofImm imm) := by
  simp [Word.ofImm?, Word.ofImm]

end Sys2Proof
end

