-- ==== Sys2Proof/Laws/Memory.lean ====
section
/-! SUPPORT. What the register and memory operations do, said once (spec/10_state.md R21, R23; spec/20_memory.md R41,
R42), and that every memory operation keeps the canonical form. -/

namespace Sys2Proof.Machine

/-! ## The listing -/

@[simp] theorem Memory.read_nil (a : Int) : Memory.read [] a = Word.zero := rfl

theorem Memory.read_filter (m : Memory) (a x : Int) :
    Memory.read (m.filter (fun c => decide (c.1 ≠ a))) x = if x = a then Word.zero else m.read x := by
  induction m with
  | nil => simp
  | cons c m ih =>
    obtain ⟨k, w⟩ := c
    by_cases hk : k = a
    · subst hk
      rw [List.filter_cons_of_neg (by simp), ih]
      by_cases hx : x = k
      · simp [hx]
      · simp [hx, Memory.read, Ne.symm hx]
    · rw [List.filter_cons_of_pos (by simp [hk])]
      simp only [Memory.read, ih]
      by_cases hx : k = x
      · subst hx; simp [hk]
      · simp [hx]

theorem Memory.read_insert (m : Memory) (a : Int) (v : Word) (x : Int) (h : ∀ c ∈ m, c.1 ≠ a) :
    (m.insert a v).read x = if x = a then v else m.read x := by
  induction m with
  | nil => simp [Memory.insert, Memory.read, eq_comm]
  | cons c m ih =>
    obtain ⟨k, w⟩ := c
    have hk : k ≠ a := h (k, w) (by simp)
    have ih := ih (fun c hc => h c (by simp [hc]))
    unfold Memory.insert
    split
    · simp [Memory.read, eq_comm]
    · simp only [Memory.read, ih]
      by_cases hx : k = x
      · subst hx; simp [hk]
      · simp [hx]

theorem Memory.filter_ne (m : Memory) (a : Int) : ∀ c ∈ m.filter (fun c => decide (c.1 ≠ a)), c.1 ≠ a := by
  intro c hc
  simpa using (List.mem_filter.mp hc).2

/-- R42 on the listing: the word written reads back, and every other address reads as before. -/
theorem Memory.read_write (m : Memory) (a : Int) (v : Word) (x : Int) :
    (m.write a v).read x = if x = a then v else m.read x := by
  unfold Memory.write
  split
  · next hv => rw [Memory.read_filter, hv]
  · rw [Memory.read_insert _ _ _ _ (Memory.filter_ne m a), Memory.read_filter]
    split <;> rfl

/-! ## The canonical form -/

theorem Memory.mem_insert (m : Memory) (a : Int) (v : Word) (c : Cell) (h : c ∈ m.insert a v) : c = (a, v) ∨ c ∈ m := by
  induction m with
  | nil => simpa [Memory.insert] using h
  | cons d m ih =>
    unfold Memory.insert at h
    split at h
    · simpa using h
    · rcases List.mem_cons.mp h with rfl | h
      · exact .inr (by simp)
      · exact (ih h).imp id (List.mem_cons_of_mem _)

theorem Memory.insert_pairwise (m : Memory) (a : Int) (v : Word) (h : ∀ c ∈ m, c.1 ≠ a)
    (hs : m.Pairwise (fun c d => c.1 < d.1)) : (m.insert a v).Pairwise (fun c d => c.1 < d.1) := by
  induction m with
  | nil => simp [Memory.insert]
  | cons c m ih =>
    obtain ⟨hhead, htail⟩ := List.pairwise_cons.mp hs
    have hne := h c (by simp)
    unfold Memory.insert
    split
    · next hlt =>
      refine List.pairwise_cons.mpr ⟨?_, hs⟩
      intro d hd
      rcases List.mem_cons.mp hd with rfl | hd
      · exact hlt
      · exact lt_trans hlt (hhead d hd)
    · next hge =>
      refine List.pairwise_cons.mpr ⟨?_, ih (fun d hd => h d (by simp [hd])) htail⟩
      intro d hd
      rcases Memory.mem_insert m a v d hd with rfl | hd
      · simp only at hne ⊢; omega
      · exact hhead d hd

/-- A write keeps the canonical form. -/
theorem Memory.wf_write (m : Memory) (a : Int) (v : Word) (h : m.wf) (hlow : -Config.m27 ≤ a) (hhigh : a ≤ Config.m27) :
    (m.write a v).wf := by
  obtain ⟨hs, hc⟩ := h
  have hfs := hs.filter (fun c => decide (c.1 ≠ a))
  have hfc : ∀ c ∈ m.filter (fun c => decide (c.1 ≠ a)), c.2 ≠ Word.zero ∧ -Config.m27 ≤ c.1 ∧ c.1 ≤ Config.m27 :=
    fun c hm => hc c (List.mem_filter.mp hm).1
  unfold Memory.write
  split
  · exact ⟨hfs, hfc⟩
  · next hv =>
    refine ⟨Memory.insert_pairwise _ _ _ (Memory.filter_ne m a) hfs, ?_⟩
    intro c hm
    rcases Memory.mem_insert _ _ _ _ hm with rfl | hm
    · exact ⟨hv, hlow, hhigh⟩
    · exact hfc c hm

/-- `MemWrite` keeps the canonical form. -/
theorem writeMem_wf (s : State) (addr : Address) (v : Word) (h : s.mem.wf) : (s.writeMem addr v).mem.wf :=
  Memory.wf_write _ _ _ h addr.val_bounds.1 addr.val_bounds.2

/-- The memory write of a cycle keeps the canonical form. -/
theorem memoryWrite_wf (s : State) (cs : ControlSignals) (addr : Address) (v : Word) (h : s.mem.wf) :
    (s.memoryWrite cs addr v).mem.wf := by
  unfold State.memoryWrite
  split
  · exact writeMem_wf s addr v h
  · exact h

/-- Placing a memory image keeps the canonical form. -/
theorem loadImage_wf (image : List (Address × Word)) (s : State) (h : s.mem.wf) : (s.loadImage image).mem.wf := by
  induction image generalizing s with
  | nil => exact h
  | cons c rest ih => exact ih _ (writeMem_wf s c.1 c.2 h)

theorem reset_mem_wf : State.reset.mem.wf := by decide

/-! ## Words at addresses and registers by index -/

/-- R42: what each address reads as after a write. -/
theorem readMem_writeMem (s : State) (a x : Address) (v : Word) :
    (s.writeMem a v).readMem x = if x.val = a.val then v else s.readMem x := Memory.read_write _ _ _ _

theorem regSlot_inj {q r : RegIndex} : regSlot q = regSlot r ↔ q.val = r.val := by
  have hq := q.val_bounds
  have hr := r.val_bounds
  unfold regSlot
  rw [Fin.ext_iff, Fin.val_ofNat, Fin.val_ofNat, Nat.mod_eq_of_lt (by omega), Nat.mod_eq_of_lt (by omega)]
  omega

/-- R21: index 0 reads the zero word whatever was written. -/
@[simp] theorem readReg_r0 (s : State) : s.readReg RegIndex.r0 = Word.zero := by simp [State.readReg]

/-- R21, R23: what each register reads as after a write. -/
theorem readReg_writeReg (s : State) (r q : RegIndex) (v : Word) :
    (s.writeReg r v).readReg q = if q.val = r.val ∧ r.val ≠ 0 then v else s.readReg q := by
  unfold State.writeReg
  by_cases hr : r.val = 0
  · simp [hr]
  · rw [if_neg hr]
    by_cases hq : q.val = r.val
    · have hslot : regSlot q = regSlot r := regSlot_inj.mpr hq
      simp [State.readReg, hq, hr, hslot]
    · have hslot : (regSlot r : Nat) ≠ regSlot q := fun h => hq (regSlot_inj.mp (Fin.ext h)).symm
      simp [State.readReg, hq, Vector.getElem_set_ne _ _ hslot]

/-- R23: the slot of the hardwired register is never written. -/
theorem writeReg_slot_r0 (s : State) (r : RegIndex) (v : Word) :
    (s.writeReg r v).regs[regSlot RegIndex.r0] = s.regs[regSlot RegIndex.r0] := by
  unfold State.writeReg
  split
  · rfl
  · next hr =>
    have hslot : (regSlot r : Nat) ≠ regSlot RegIndex.r0 := by
      intro h
      have := regSlot_inj.mp (Fin.ext h)
      simp at this
      exact hr this
    exact Vector.getElem_set_ne (regSlot r).isLt _ hslot

end Sys2Proof.Machine
end

