-- ==== Sys2Proof/Laws/Cycle.lean ====
section
/-! SUPPORT. What the arithmetic unit and one cycle do, said once for all instructions
(spec/43_alu.md; spec/44_cycle.md R161 to R172). Later proofs cite these instead of unfolding the cycle. -/

namespace Sys2Proof.Machine

/-! ## The latches -/

@[simp] theorem set_a (l : AluLatches) (a b : Word) (op : AluOp) : (l.set a b op).a = a := rfl
@[simp] theorem set_b (l : AluLatches) (a b : Word) (op : AluOp) : (l.set a b op).b = b := rfl
@[simp] theorem set_op (l : AluLatches) (a b : Word) (op : AluOp) : (l.set a b op).op = op := rfl
@[simp] theorem set_result (l : AluLatches) (a b : Word) (op : AluOp) : (l.set a b op).result = l.result := rfl
@[simp] theorem set_zeroFlag (l : AluLatches) (a b : Word) (op : AluOp) : (l.set a b op).zeroFlag = l.zeroFlag := rfl
@[simp] theorem execute_a (l : AluLatches) : l.execute.a = l.a := rfl
@[simp] theorem execute_b (l : AluLatches) : l.execute.b = l.b := rfl
@[simp] theorem execute_op (l : AluLatches) : l.execute.op = l.op := rfl
@[simp] theorem execute_result (l : AluLatches) : l.execute.result = aluResult l.op l.a l.b := rfl
@[simp] theorem execute_zeroFlag (l : AluLatches) : l.execute.zeroFlag = zeroFlagOf (aluResult l.op l.a l.b) := rfl

/-- R141, R165: in a cycle that observes the unit, the latches hold this cycle's operands and what they give. -/
theorem runAlu_observed (s : State) {cs : ControlSignals} (h : cs.aluObserved = true) (va b : Word) :
    s.runAlu cs va b =
      { s with alu := ⟨va, b, cs.aluOp, aluResult cs.aluOp va b, zeroFlagOf (aluResult cs.aluOp va b)⟩ } := by
  simp [State.runAlu, h, AluLatches.set, AluLatches.execute]

/-- R165: whatever ran, the latched result and flag are those of some operation on the latched inputs. -/
theorem runAlu_executed (s : State) (cs : ControlSignals) (va b : Word) :
    ∃ (x y : Word) (op : AluOp), (s.runAlu cs va b).alu = ⟨x, y, op, aluResult op x y, zeroFlagOf (aluResult op x y)⟩ := by
  unfold State.runAlu
  split
  · exact ⟨_, _, _, rfl⟩
  · exact ⟨_, _, _, rfl⟩

/-! ## The execute phase, field by field -/

variable (s : State) (cs : ControlSignals) (imm : Word) (rd rs1 rs2 : RegIndex) (seq target : Word)

/-- The state after the arithmetic unit ran in the cycle. -/
abbrev aluRun : State := s.runAlu cs (s.readReg rs1) (operandB cs.aluSrc imm (s.readReg rs2))

theorem execute_pc :
    (s.execute cs imm rd rs1 rs2 seq target).pc = nextPc cs (aluRun s cs imm rs1 rs2).alu.zeroFlag seq target := rfl

theorem execute_alu : (s.execute cs imm rd rs1 rs2 seq target).alu = (aluRun s cs imm rs1 rs2).alu := by
  simp [State.execute]

theorem execute_draws : (s.execute cs imm rd rs1 rs2 seq target).draws = (aluRun s cs imm rs1 rs2).draws := by
  simp [State.execute]

/-- R166, R42: memory after the cycle. -/
theorem execute_mem :
    (s.execute cs imm rd rs1 rs2 seq target).mem =
      ((aluRun s cs imm rs1 rs2).memoryWrite cs (aluRun s cs imm rs1 rs2).alu.result (s.readReg rs2)).mem := by
  simp [State.execute]

/-- R166, R42: what each address reads as after the cycle. -/
theorem execute_readMem (addr : Address) :
    (s.execute cs imm rd rs1 rs2 seq target).readMem addr =
      if cs.memWrite = true ∧ addr.val = (aluRun s cs imm rs1 rs2).alu.result.val then s.readReg rs2
      else s.readMem addr := by
  rw [readMem_congr (execute_mem s cs imm rd rs1 rs2 seq target)]
  unfold State.memoryWrite
  by_cases h : cs.memWrite = true
  · simp [h, readMem_writeMem]
  · simp [h]

/-- R168, R23: what each register reads as after the cycle. The word loaded is the one held after the cycle's own memory
write (R167). -/
theorem execute_readReg (q : RegIndex) :
    (s.execute cs imm rd rs1 rs2 seq target).readReg q =
      if cs.regWrite = true ∧ q.val = rd.val ∧ rd.val ≠ 0 then
        writebackValue cs
          (((aluRun s cs imm rs1 rs2).memoryWrite cs (aluRun s cs imm rs1 rs2).alu.result (s.readReg rs2)).memoryRead cs
            (aluRun s cs imm rs1 rs2).alu.result)
          seq (aluRun s cs imm rs1 rs2).alu.result
      else s.readReg q := by
  have hregs : ∀ t : State, (∀ p, t.readReg p = s.readReg p) → ∀ v : Word,
      (t.writeback cs rd v).readReg q =
        if cs.regWrite = true ∧ q.val = rd.val ∧ rd.val ≠ 0 then v else s.readReg q := by
    intro t ht v
    unfold State.writeback
    by_cases h : cs.regWrite = true
    · simp [h, readReg_writeReg, ht]
    · simp [h, ht]
  exact hregs _ (fun p => readReg_congr (by simp) p) _

/-- R23: no cycle writes the slot of the hardwired register. -/
theorem execute_slot_r0 :
    (s.execute cs imm rd rs1 rs2 seq target).regs[regSlot RegIndex.r0] = s.regs[regSlot RegIndex.r0] := by
  simp only [State.execute, writePc_regs]
  unfold State.writeback
  split
  · rw [writeReg_slot_r0]; simp
  · simp

/-! ## The whole cycle -/

/-- R175: the checks of R203 never fail, so the cycle answers the executed state. -/
theorem runCycle_eq (imm : Int) :
    runCycle cs imm rd rs1 rs2 s =
      .next (s.execute cs (Word.ofImm imm) rd rs1 rs2 (s.pc.add Word.one) (s.pc.add (Word.ofImm imm))) := by
  simp [runCycle]

/-- R161: every instruction's meaning is the one cycle under its row of the decode table R122 and the operands of R131
and R132. -/
theorem exec_eq_runCycle (i : Instr) (s : State) :
    exec i s = runCycle (signalsOf i) (immOf i) (rdOf i) (rs1Of i) (rs2Of i) s := by
  cases i <;> rfl

theorem step_eq (s : State) : step s = exec (decode s.fetch) s := rfl

end Sys2Proof.Machine
end

