-- ==== Sys2Proof/Laws/PerInstr.lean ====
section
/-! SUPPORT. Facts about every instruction as syntax, one lemma per constructor. -/

namespace Sys2Proof.Laws

open Sys2Proof.Machine

/-! R133: the properties of the decode table, and that its enables fit the registers R25 gives the instruction. -/

/-- R133 (1) to (3), and (4) against R25: the enables never clash, `mem_to_reg` is `mem_read`, and `reg_write` is set
exactly for the instructions that have a destination register. -/
def Signals.Statement (i : Instr) : Prop :=
  ((signalsOf i).memRead && (signalsOf i).memWrite) = false ∧
    (signalsOf i).memToReg = (signalsOf i).memRead ∧
    ((signalsOf i).jump && (signalsOf i).branch) = false ∧
    (signalsOf i).regWrite = (destOf i).isSome

theorem Signals.add (rd rs1 rs2 : RegIndex) : Signals.Statement (.add rd rs1 rs2) := ⟨rfl, rfl, rfl, rfl⟩
theorem Signals.sub (rd rs1 rs2 : RegIndex) : Signals.Statement (.sub rd rs1 rs2) := ⟨rfl, rfl, rfl, rfl⟩
theorem Signals.addi (rd rs1 : RegIndex) (imm : Int) : Signals.Statement (.addi rd rs1 imm) := ⟨rfl, rfl, rfl, rfl⟩
theorem Signals.lw (rd rs1 : RegIndex) (imm : Int) : Signals.Statement (.lw rd rs1 imm) := ⟨rfl, rfl, rfl, rfl⟩
theorem Signals.sw (rs1 rs2 : RegIndex) (imm : Int) : Signals.Statement (.sw rs1 rs2 imm) := ⟨rfl, rfl, rfl, rfl⟩
theorem Signals.beq (rs1 rs2 : RegIndex) (imm : Int) : Signals.Statement (.beq rs1 rs2 imm) := ⟨rfl, rfl, rfl, rfl⟩
theorem Signals.jal (rd : RegIndex) (imm : Int) : Signals.Statement (.jal rd imm) := ⟨rfl, rfl, rfl, rfl⟩
theorem Signals.lui (rd : RegIndex) (imm : Int) : Signals.Statement (.lui rd imm) := ⟨rfl, rfl, rfl, rfl⟩
theorem Signals.nop : Signals.Statement .nop := ⟨rfl, rfl, rfl, rfl⟩

/-! R67: the opcode map, as the encoder writes it. -/

/-- R67: the opcode trits `t[4:0]`, least significant first. -/
def opcodeTrits (i : Instr) : List Trit :=
  match i with
  | .add _ _ _ => [.P, .Z, .Z, .Z, .Z]
  | .sub _ _ _ => [.N, .P, .Z, .Z, .Z]
  | .addi _ _ _ => [.Z, .P, .Z, .Z, .Z]
  | .lw _ _ _ => [.P, .P, .Z, .Z, .Z]
  | .sw _ _ _ => [.N, .N, .P, .Z, .Z]
  | .beq _ _ _ => [.Z, .N, .P, .Z, .Z]
  | .jal _ _ => [.P, .N, .P, .Z, .Z]
  | .lui _ _ => [.N, .Z, .P, .Z, .Z]
  | .nop => [.Z, .Z, .Z, .Z, .Z]

/-- The encoder writes the opcode of R67 into `t[4:0]`. -/
def OpcodeField.Statement (i : Instr) : Prop := ((encode i).slice 0 5 (by decide)).trits = opcodeTrits i

/-- The lowest five trits of a word made of fields are the opcode's. -/
theorem ofFields_opcodeTrits (op : Int) (rd rs1 rs2 : RegIndex) (imm : Int) :
    ((Word.ofFields op rd rs1 rs2 imm).slice 0 5 (by decide)).trits = (TritField.fromValue 5 op).trits := by
  have h := (TritField.fromValue 5 op).length_eq
  simp [Word.ofFields, TritField.slice, List.append_assoc, h]

theorem OpcodeField.add (rd rs1 rs2 : RegIndex) : OpcodeField.Statement (.add rd rs1 rs2) :=
  (ofFields_opcodeTrits 1 _ _ _ _).trans rfl
theorem OpcodeField.sub (rd rs1 rs2 : RegIndex) : OpcodeField.Statement (.sub rd rs1 rs2) :=
  (ofFields_opcodeTrits 2 _ _ _ _).trans rfl
theorem OpcodeField.addi (rd rs1 : RegIndex) (imm : Int) : OpcodeField.Statement (.addi rd rs1 imm) :=
  (ofFields_opcodeTrits 3 _ _ _ _).trans rfl
theorem OpcodeField.lw (rd rs1 : RegIndex) (imm : Int) : OpcodeField.Statement (.lw rd rs1 imm) :=
  (ofFields_opcodeTrits 4 _ _ _ _).trans rfl
theorem OpcodeField.sw (rs1 rs2 : RegIndex) (imm : Int) : OpcodeField.Statement (.sw rs1 rs2 imm) :=
  (ofFields_opcodeTrits 5 _ _ _ _).trans rfl
theorem OpcodeField.beq (rs1 rs2 : RegIndex) (imm : Int) : OpcodeField.Statement (.beq rs1 rs2 imm) :=
  (ofFields_opcodeTrits 6 _ _ _ _).trans rfl
theorem OpcodeField.jal (rd : RegIndex) (imm : Int) : OpcodeField.Statement (.jal rd imm) :=
  (ofFields_opcodeTrits 7 _ _ _ _).trans rfl
theorem OpcodeField.lui (rd : RegIndex) (imm : Int) : OpcodeField.Statement (.lui rd imm) :=
  (ofFields_opcodeTrits 8 _ _ _ _).trans rfl
theorem OpcodeField.nop : OpcodeField.Statement .nop := (ofFields_opcodeTrits 0 _ _ _ _).trans rfl

end Sys2Proof.Laws
end

