-- ==== Sys2Proof/Machine/Assembly.lean ====
section
/-! DEFINITION. The spec's own notation for test programs: register names, the written form of an instruction and five
pseudo-instructions (spec/30_encoding.md, rules R75 to R77; spec/10_state.md, rule R24). No part of the hardware depends
on it. DESIGN CHOICE (the spec's D11 and D12; log 22, safe). -/

namespace Sys2Proof

/-- R76: the register named `r<n>`; a name outside `r-13 … r13` is refused, not wrapped. -/
def RegIndex.named? (n : Int) : Option RegIndex :=
  if -13 ≤ n ∧ n ≤ 13 then some (RegIndex.ofInt n) else none

/-- R24: the name of a register. -/
def RegIndex.name (r : RegIndex) : String := "r" ++ toString r.val

/-- R75: an instruction as it is written, operands in the order of the source's examples. -/
def Instr.written (i : Instr) : String :=
  match i with
  | .add rd rs1 rs2 => "Add " ++ rd.name ++ "," ++ rs1.name ++ "," ++ rs2.name
  | .sub rd rs1 rs2 => "Sub " ++ rd.name ++ "," ++ rs1.name ++ "," ++ rs2.name
  | .addi rd rs1 imm => "Addi " ++ rd.name ++ "," ++ rs1.name ++ "," ++ toString imm
  | .lw rd rs1 imm => "Lw " ++ rd.name ++ "," ++ rs1.name ++ "," ++ toString imm
  | .sw rs1 rs2 imm => "Sw " ++ rs1.name ++ "," ++ rs2.name ++ "," ++ toString imm
  | .beq rs1 rs2 imm => "Beq " ++ rs1.name ++ "," ++ rs2.name ++ "," ++ toString imm
  | .jal rd imm => "Jal " ++ rd.name ++ "," ++ toString imm
  | .lui rd imm => "Lui " ++ rd.name ++ "," ++ toString imm
  | .nop => "Nop"

/-- R77 `Li rd, imm`: load a constant. -/
def Instr.li (rd : RegIndex) (imm : Int) : Instr := .addi rd RegIndex.r0 imm

/-- R77 `Mv rd, rs`: copy a register. -/
def Instr.mv (rd rs : RegIndex) : Instr := .addi rd rs 0

/-- R77 `J imm`: jump with no link. -/
def Instr.j (imm : Int) : Instr := .jal RegIndex.r0 imm

/-- R77 `Halt`: jump to itself (R238). -/
def Instr.halt : Instr := .jal RegIndex.r0 0

/-- R77 `Beqz rs, imm`: branch if zero. -/
def Instr.beqz (rs : RegIndex) (imm : Int) : Instr := .beq rs RegIndex.r0 imm

end Sys2Proof
end

