-- ==== Sys2Proof/Tests/Slice0.lean ====
section
/-! SUPPORT. The model's own tests. Expected results are the spec's: rules R78 and R112, and the vectors of
spec/95_test_vectors.md by their ids. The second half gives, for each statement with hypotheses, values that meet them. -/

namespace Sys2Proof.Tests

open Sys2Proof.Machine

/-! ## Helpers -/

/-- Register `r<n>`. -/
abbrev r (n : Int) : RegIndex := RegIndex.ofInt n

/-- The word of value `v`. -/
abbrev word (v : Int) : Word := TritField.fromValue 27 v

/-- A word from a trit string written most significant first (R9). -/
abbrev msb (ds : List Trit) (h : ds.reverse.length = 27) : Word := ⟨ds.reverse, h⟩

/-- A state from reset: the PC, then registers, then memory words, by value. -/
def given (pc : Int) (regs mem : List (Int × Int)) : State :=
  mem.foldl (fun s c => s.writeMem (word c.1) (word c.2))
    (regs.foldl (fun s c => s.writeReg (r c.1) (word c.2)) (State.reset.writePc (word pc)))

/-- What a step's next state shows, if it has one. -/
def seen {α : Type} (f : State → α) (o : Host.Outcome State Fault Refusal) : Option α :=
  match o with
  | .next t => some (f t)
  | .fault _ => none
  | .refused _ => none

/-- The PC's value, a register's and an address's, after one step. -/
def pcAndReg (q : Int) (t : State) : Int × Int := (t.pc.val, (t.readReg (r q)).val)
def pcAndMem (a : Int) (t : State) : Int × Int := (t.pc.val, (t.readMem (word a)).val)

/-! ## WellFormed: each check refuses an ill-formed term, and the ends of the range pass -/

theorem test_wellFormed_addi : (Instr.addi (r 1) (r 0) 797162).wellFormed = false ∧
    (Instr.addi (r 1) (r 0) 797161).wellFormed = true := by decide
theorem test_wellFormed_lw : (Instr.lw (r 1) (r 0) (-797162)).wellFormed = false ∧
    (Instr.lw (r 1) (r 0) (-797161)).wellFormed = true := by decide
theorem test_wellFormed_sw : (Instr.sw (r 1) (r 0) 797162).wellFormed = false ∧
    (Instr.sw (r 1) (r 0) 797161).wellFormed = true := by decide
theorem test_wellFormed_beq : (Instr.beq (r 1) (r 0) (-797162)).wellFormed = false ∧
    (Instr.beq (r 1) (r 0) (-797161)).wellFormed = true := by decide
theorem test_wellFormed_jal : (Instr.jal (r 1) 797162).wellFormed = false ∧
    (Instr.jal (r 1) 797161).wellFormed = true := by decide
theorem test_wellFormed_lui : (Instr.lui (r 1) (-797162)).wellFormed = false ∧
    (Instr.lui (r 1) (-797161)).wellFormed = true := by decide

/-! ## Decode: one word per constructor, written out from the spec's trit strings -/

/-- R78 `Add r3,r1,r2`; value 361585. -/
theorem test_decode_add : decode (msb [.Z, .Z, .Z, .Z, .Z, .Z, .Z, .Z, .Z, .Z, .Z, .Z, .Z, .Z, .P, .N, .Z, .Z, .P, .Z, .P, .Z, .Z, .Z, .Z, .Z, .P] rfl) = .add (r 3) (r 1) (r 2) ∧ (msb [.Z, .Z, .Z, .Z, .Z, .Z, .Z, .Z, .Z, .Z, .Z, .Z, .Z, .Z, .P, .N, .Z, .Z, .P, .Z, .P, .Z, .Z, .Z, .Z, .Z, .P] rfl).val = 361585 := by
  decide

/-- P4 `Sub r5,r0,r4`; value 709805. -/
theorem test_decode_sub : decode (msb [.Z, .Z, .Z, .Z, .Z, .Z, .Z, .Z, .Z, .Z, .Z, .Z, .Z, .Z, .P, .P, .Z, .Z, .Z, .P, .N, .N, .Z, .Z, .Z, .P, .N] rfl) = .sub (r 5) (r 0) (r 4) ∧ (msb [.Z, .Z, .Z, .Z, .Z, .Z, .Z, .Z, .Z, .Z, .Z, .Z, .Z, .Z, .P, .P, .Z, .Z, .Z, .P, .N, .N, .Z, .Z, .Z, .P, .N] rfl).val = 709805 := by
  decide

/-- R78 `Addi r1,r0,42`; value 200884944. -/
theorem test_decode_addi : decode (msb [.Z, .Z, .Z, .Z, .Z, .Z, .Z, .Z, .P, .N, .N, .N, .Z, .Z, .Z, .Z, .Z, .Z, .Z, .Z, .Z, .P, .Z, .Z, .Z, .P, .Z] rfl) = .addi (r 1) (r 0) 42 ∧ (msb [.Z, .Z, .Z, .Z, .Z, .Z, .Z, .Z, .P, .N, .N, .N, .Z, .Z, .Z, .Z, .Z, .Z, .Z, .Z, .Z, .P, .Z, .Z, .Z, .P, .Z] rfl).val = 200884944 := by
  decide

/-- R78 `Lw r2,r0,100`; value 478297390. -/
theorem test_decode_lw : decode (msb [.Z, .Z, .Z, .Z, .Z, .Z, .Z, .Z, .P, .P, .N, .Z, .P, .Z, .Z, .Z, .Z, .Z, .Z, .Z, .P, .N, .Z, .Z, .Z, .P, .P] rfl) = .lw (r 2) (r 0) 100 ∧ (msb [.Z, .Z, .Z, .Z, .Z, .Z, .Z, .Z, .P, .P, .N, .Z, .P, .Z, .Z, .Z, .Z, .Z, .Z, .Z, .P, .N, .Z, .Z, .Z, .P, .P] rfl).val = 478297390 := by
  decide

/-- P4 `Sw r-1,r5,-2`; value -8686759. -/
theorem test_decode_sw : decode (msb [.Z, .Z, .Z, .Z, .Z, .Z, .Z, .Z, .Z, .Z, .Z, .N, .P, .P, .N, .N, .Z, .Z, .N, .Z, .Z, .Z, .Z, .Z, .P, .N, .N] rfl) = .sw (r (-1)) (r 5) (-2) ∧ (msb [.Z, .Z, .Z, .Z, .Z, .Z, .Z, .Z, .Z, .Z, .Z, .N, .P, .P, .N, .N, .Z, .Z, .N, .Z, .Z, .Z, .Z, .Z, .P, .N, .N] rfl).val = -8686759 := by
  decide

/-- P4 `Beq r-1,r-1,8`; value 38080050. -/
theorem test_decode_beq : decode (msb [.Z, .Z, .Z, .Z, .Z, .Z, .Z, .Z, .Z, .Z, .P, .Z, .N, .Z, .Z, .N, .Z, .Z, .N, .Z, .Z, .Z, .Z, .Z, .P, .N, .Z] rfl) = .beq (r (-1)) (r (-1)) 8 ∧ (msb [.Z, .Z, .Z, .Z, .Z, .Z, .Z, .Z, .Z, .Z, .P, .Z, .N, .Z, .Z, .N, .Z, .Z, .N, .Z, .Z, .Z, .Z, .Z, .P, .N, .Z] rfl).val = 38080050 := by
  decide

/-- P4 `Jal r-1,-10`; value -47829926. -/
theorem test_decode_jal : decode (msb [.Z, .Z, .Z, .Z, .Z, .Z, .Z, .Z, .Z, .Z, .N, .Z, .N, .Z, .Z, .Z, .Z, .Z, .Z, .Z, .Z, .N, .Z, .Z, .P, .N, .P] rfl) = .jal (r (-1)) (-10) ∧ (msb [.Z, .Z, .Z, .Z, .Z, .Z, .Z, .Z, .Z, .Z, .N, .Z, .N, .Z, .Z, .Z, .Z, .Z, .Z, .Z, .Z, .N, .Z, .Z, .P, .N, .P] rfl).val = -47829926 := by
  decide

/-- P4 `Lui r4,-797161`; value -3812796350029. -/
theorem test_decode_lui : decode (msb [.N, .N, .N, .N, .N, .N, .N, .N, .N, .N, .N, .N, .N, .Z, .Z, .Z, .Z, .Z, .Z, .Z, .P, .P, .Z, .Z, .P, .Z, .N] rfl) = .lui (r 4) (-797161) ∧ (msb [.N, .N, .N, .N, .N, .N, .N, .N, .N, .N, .N, .N, .N, .Z, .Z, .Z, .Z, .Z, .Z, .Z, .P, .P, .Z, .Z, .P, .Z, .N] rfl).val = -3812796350029 := by
  decide

/-- L2.3, opcode 9 with rd 3, rs1 1, rs2 2, imm 5; value 24276438. -/
theorem test_decode_nop : decode (msb [.Z, .Z, .Z, .Z, .Z, .Z, .Z, .Z, .Z, .Z, .P, .N, .N, .Z, .P, .N, .Z, .Z, .P, .Z, .P, .Z, .Z, .Z, .P, .Z, .Z] rfl) = .nop ∧ (msb [.Z, .Z, .Z, .Z, .Z, .Z, .Z, .Z, .Z, .Z, .P, .N, .N, .Z, .P, .N, .Z, .Z, .P, .Z, .P, .Z, .Z, .Z, .P, .Z, .Z] rfl).val = 24276438 := by
  decide

/-- L2.3: the encoder wraps an immediate of 797162; the word decodes with -797161. -/
theorem test_encode_wraps : encode (.addi (r 1) (r 0) 797162) = encode (.addi (r 1) (r 0) (-797161)) ∧
    decode (encode (.addi (r 1) (r 0) 797162)) = .addi (r 1) (r 0) (-797161) := by decide

/-- L2.3, R71: register operands 14, -14 and 27 wrap to -13, 13 and 0. -/
theorem test_register_index_wraps : (r 14).val = -13 ∧ (r (-14)).val = 13 ∧ (r 27).val = 0 := by decide

/-- L2.3: opcodes -121, -1, 0 and 121 decode as Nop; 1 and 7 alone are `Add r0,r0,r0` and `Jal r0,0`. -/
theorem test_decode_small_words :
    decode (word (-121)) = .nop ∧ decode (word (-1)) = .nop ∧ decode (word 0) = .nop ∧ decode (word 121) = .nop ∧
      decode (word 1) = .add (r 0) (r 0) (r 0) ∧ decode (word 7) = .jal (r 0) 0 := by decide

/-- opcode_table.json's `match` numbers, through the table interface. -/
theorem test_table_words :
    decodeTableWord 32 1 = some (.add (r 0) (r 0) (r 0)) ∧ decodeTableWord 32 2 = some (.sub (r 0) (r 0) (r 0)) ∧
      decodeTableWord 32 3 = some (.addi (r 0) (r 0) 0) ∧ decodeTableWord 32 4 = some (.lw (r 0) (r 0) 0) ∧
      decodeTableWord 32 5 = some (.sw (r 0) (r 0) 0) ∧ decodeTableWord 32 6 = some (.beq (r 0) (r 0) 0) ∧
      decodeTableWord 32 7 = some (.jal (r 0) 0) ∧ decodeTableWord 32 8 = some (.lui (r 0) 0) ∧
      decodeTableWord 32 0 = some .nop := by decide

/-! ## The ternary word, the circuit primitives and the arithmetic unit -/

/-- L2.1: `fv_N` by trit strings. -/
theorem test_fromValue_trits :
    (TritField.fromValue 3 5).trits.reverse = [.P, .N, .N] ∧ (TritField.fromValue 3 (-5)).trits.reverse = [.N, .P, .P] ∧
      (TritField.fromValue 5 100).trits.reverse = [.P, .P, .N, .Z, .P] ∧ (TritField.fromValue 0 7).trits = [] := by
  decide

/-- L2.1: wraps. -/
theorem test_fromValue_wraps :
    (TritField.fromValue 1 2).val = -1 ∧ (TritField.fromValue 3 14).val = -13 ∧ (TritField.fromValue 3 40).val = 13 ∧
      (TritField.fromValue 5 122).val = -121 ∧ (TritField.fromValue 13 797162).val = -797161 ∧
      (word 3812798742494).val = -3812798742493 ∧ (word 7625597484987).val = 0 := by decide

/-- L2.1, R99: widening an immediate field, and fields of the other widths, the two ends 0 and 27 among them. -/
theorem test_sext :
    ((TritField.fromValue 13 (-797161)).sext (by decide)).trits = List.replicate 13 .N ++ List.replicate 14 .Z ∧
      ((TritField.fromValue 13 5).sext (by decide)).trits = [.N, .N, .P] ++ List.replicate 24 .Z ∧
      ((TritField.fromValue 3 (-13)).sext (by decide)).val = -13 ∧
      ((TritField.fromValue 5 122).sext (by decide)).val = -121 ∧
      (TritField.fromValue 0 7).sext (by decide) = Word.zero ∧
      (word (-3812798742493)).sext (by decide) = word (-3812798742493) := by decide

/-- R111: the seven rows, by raw sum, over all 27 triples. -/
theorem test_fullTritAdder (a b c : Trit) : fullTritAdder a b c =
    if a.toInt + b.toInt + c.toInt = 3 then (.Z, .P) else if a.toInt + b.toInt + c.toInt = 2 then (.N, .P)
    else if a.toInt + b.toInt + c.toInt = 1 then (.P, .Z) else if a.toInt + b.toInt + c.toInt = 0 then (.Z, .Z)
    else if a.toInt + b.toInt + c.toInt = -1 then (.N, .Z) else if a.toInt + b.toInt + c.toInt = -2 then (.P, .N)
    else (.Z, .N) := by
  cases a <;> cases b <;> cases c <;> rfl

/-- R113: the minimum gate's nine entries. -/
theorem test_minimum :
    [minimum .N .N, minimum .N .Z, minimum .N .P, minimum .Z .N, minimum .Z .Z, minimum .Z .P, minimum .P .N,
      minimum .P .Z, minimum .P .P] = [.N, .N, .N, .N, .Z, .Z, .N, .Z, .P] := by decide

/-- L2.5: ADD wraps at both ends. -/
theorem test_alu_add :
    (aluResult .add (word 3812798742493) (word 1)).val = -3812798742493 ∧
      (aluResult .add (word (-3812798742493)) (word (-3812798742493))).val = 1 ∧
      zeroFlagOf (aluResult .add (word 4) (word (-4))) = .P := by decide

/-- L2.5: SUB of the extremes is -1, so its zero flag is Zero; PASS_B of zero sets it. -/
theorem test_alu_sub_passB :
    (aluResult .sub (word 3812798742493) (word (-3812798742493))).val = -1 ∧
      zeroFlagOf (aluResult .sub (word 3812798742493) (word (-3812798742493))) = .Z ∧
      (aluResult .passB (word 123) (word (-45))).val = -45 ∧ zeroFlagOf (aluResult .passB (word 123) (word 0)) = .P := by
  decide

/-- R141, R149: set, execute, reset. -/
theorem test_alu_latches :
    ((AluLatches.initial.set (word 7) (word 7) .sub).execute.zeroFlag = .P) ∧
      (AluLatches.initial.set (word 7) (word 7) .sub).execute.reset = AluLatches.initial := by decide

/-- L2.4: the control signals and the immediate output of the table's nine instructions. -/
theorem test_signals :
    signalsOf (.add (r 3) (r 1) (r 2)) = ⟨.add, .reg, true, false, false, false, false, false⟩ ∧
      signalsOf (.sub (r 3) (r 1) (r 2)) = ⟨.sub, .reg, true, false, false, false, false, false⟩ ∧
      signalsOf (.addi (r 1) (r 0) 5) = ⟨.add, .imm, true, false, false, false, false, false⟩ ∧
      signalsOf (.lw (r 2) (r 0) 100) = ⟨.add, .imm, true, true, false, true, false, false⟩ ∧
      signalsOf (.sw (r 0) (r 1) 100) = ⟨.add, .imm, false, false, true, false, false, false⟩ ∧
      signalsOf (.beq (r 1) (r 2) (-4)) = ⟨.sub, .reg, false, false, false, false, true, false⟩ ∧
      signalsOf (.jal (r (-1)) (-10)) = ⟨.add, .reg, true, false, false, false, false, true⟩ ∧
      signalsOf (.lui (r 4) (-797161)) = ⟨.passB, .imm, true, false, false, false, false, false⟩ ∧
      signalsOf .nop = ⟨.add, .reg, false, false, false, false, false, false⟩ ∧
      (Word.ofImm (immOf (.lui (r 4) (-797161)))).trits = List.replicate 13 .N ++ List.replicate 14 .Z ∧
      Word.ofImm (immOf .nop) = Word.zero := by decide

/-! ## One step of each instruction: vectors of L2.6 and L2.7, at the PC the vector gives -/

/-- A2. -/
theorem test_step_add_wraps : seen (pcAndReg 3) (step (given 10 [(1, 3812798742493), (2, 1)] [(10, 361585)])) =
    some (11, -3812798742493) := by decide
/-- A3. -/
theorem test_step_add_same_register : seen (pcAndReg 1) (step (given 10 [(1, 7)] [(10, 183952)])) = some (11, 14) := by
  decide
/-- S1. -/
theorem test_step_sub : seen (pcAndReg 3) (step (given 10 [(1, 15), (2, 10)] [(10, 361586)])) = some (11, 5) := by decide
/-- S2. -/
theorem test_step_sub_wraps : seen (pcAndReg 3) (step (given 10 [(1, -3812798742493), (2, 1)] [(10, 361586)])) =
    some (11, 3812798742493) := by decide
/-- I1. -/
theorem test_step_addi : seen (pcAndReg 2) (step (given 10 [(1, 100)] [(10, -3812796343959)])) =
    some (11, -797061) := by decide
/-- P7, cycle 1: `Addi r0,r0,123` writes nothing. -/
theorem test_step_addi_r0 : seen (pcAndReg 0) (step (given 10 [] [(10, 588305190)])) = some (11, 0) := by decide
/-- L3: the base is overwritten. -/
theorem test_step_lw : seen (pcAndReg 1) (step (given 10 [(1, 3)] [(10, 47836498), (13, 77)])) = some (11, 77) := by
  decide
/-- L2: an unwritten address reads zero. -/
theorem test_step_lw_unwritten : seen (pcAndReg 2) (step (given 10 [(1, 50), (2, 8)] [(10, -23907794)])) =
    some (11, 0) := by decide
/-- W2: the address wraps. -/
theorem test_step_sw_wraps : seen (pcAndMem (-3812798742493)) (step (given 10 [(1, 3812798742493), (2, 6)]
    [(10, 5143829)])) = some (11, 6) := by decide
/-- W4: the instruction overwrites itself with the zero word, which is no longer listed. -/
theorem test_step_sw_self : seen (fun t => t.mem) (step (given 10 [] [(10, 48183989)])) = some [] := by decide
/-- B1. -/
theorem test_step_beq_taken : seen (pcAndReg 1) (step (given 10 [(1, 3), (2, 3)] [(10, -18771015)])) =
    some (6, 3) := by decide
/-- B3. -/
theorem test_step_beq_exact : seen (pcAndReg 1) (step (given 10 [(1, 3812798742493), (2, -3812798742493)]
    [(10, -18771015)])) = some (11, 3812798742493) := by decide
/-- J2. -/
theorem test_step_jal : seen (pcAndReg 1) (step (given 10 [] [(10, -3812796350759)])) = some (-797151, 11) := by decide
/-- J3: the link wraps at the top. -/
theorem test_step_jal_link_wraps : seen (pcAndReg 2) (step (given 3812798742493 [] [(3812798742493, 493)])) =
    some (3812798742493, -3812798742493) := by decide
/-- U2. -/
theorem test_step_lui : seen (pcAndReg 1) (step (given 10 [] [(10, -3812796350758)])) = some (11, -797161) := by decide
/-- N2. -/
theorem test_step_nop : seen (pcAndReg 3) (step (given 10 [(3, 9)] [(10, 24276438)])) = some (11, 9) := by decide

/-! ## The spec's notation -/

/-- R75, R76: names and the written form. -/
theorem test_written : (Instr.sw (r 0) (r (-1)) 100).written = "Sw r0,r-1,100" ∧ RegIndex.named? 14 = none ∧
    RegIndex.named? (-13) = some (r (-13)) := by decide

/-- R77: the pseudo-instructions are the real ones, and `Halt` is the word 7 (L2.3). -/
theorem test_pseudo : Instr.li (r 1) 5 = .addi (r 1) (r 0) 5 ∧ Instr.mv (r 1) (r 2) = .addi (r 1) (r 2) 0 ∧
    Instr.j (-3) = .jal (r 0) (-3) ∧ Instr.beqz (r 1) 2 = .beq (r 1) (r 0) 2 ∧ encode Instr.halt = word 7 := by decide

/-! ## Witnesses: values that meet the hypotheses of the statements -/

/-- Every step answers a next state, so a hypothesis `step s = .next t` is met from every state. -/
theorem witness_step (s : State) : ∃ t, step s = .next t :=
  ⟨_, (exec_eq_runCycle _ s).trans (runCycle_eq _ _ _ _ _ _)⟩

/-- FromValueNeverFailsAndWraps, FromValueIsTheBalancedResidue: `---` is congruent to 14 modulo 27. -/
theorem witness_congruent_field : ((3 : Int) ^ 3) ∣ (14 - (TritField.fromValue 3 (-13)).val) := by decide

/-- TernaryRoundTrips, at both ends of the range. -/
theorem witness_round_trip_range : -Config.maxMagnitude 13 ≤ 797161 ∧ (797161 : Int) ≤ Config.maxMagnitude 13 ∧
    -Config.maxMagnitude 13 ≤ -797161 := by decide

/-- WideningKeepsTheValue, at both ends of the widths. -/
theorem witness_widths : 0 ≤ 27 ∧ 27 ≤ 27 := by decide

/-- The immediates of AddiWritesTheSum to LuiWritesTheImmediate, LuiIsAddiFromZero, LoadAfterStoreGivesTheWord and
MemoryWriteGoesToTheResult, at both ends of the range. -/
theorem witness_immInRange : Instr.immInRange 797161 ∧ Instr.immInRange (-797161) := by decide

/-- DecodeOfEncodeIsTheInstruction. -/
theorem witness_wellFormed : (Instr.jal (r (-13)) (-797161)).wellFormed = true := by decide

/-- DecodeReadsTheFieldValues, at the ends of every field and at each opcode where its clauses meet. -/
theorem witness_field_values : ∀ op ∈ [(-121 : Int), 0, 1, 2, 3, 4, 5, 6, 7, 8, 9, 121],
    -121 ≤ op ∧ op ≤ 121 ∧ Instr.immInRange (-797161) ∧
      (Word.ofFields op (r (-13)) (r 13) (r 0) (-797161)).val =
        op + 243 * (r (-13)).val + 6561 * (r 13).val + 177147 * (r 0).val + 4782969 * (-797161) := by decide

/-- EncodeOfDecodeIsTheWord: a word of each class with its unused fields `0`, and one whose unused field is not. -/
theorem witness_unused_fields :
    encode (decode (word 361585)) = word 361585 ∧ encode (decode (word 23915091)) = word 23915091 ∧
      encode (decode (word 478474052)) = word 478474052 ∧ encode (decode (word 23915095)) = word 23915095 ∧
      encode (decode (word 0)) = word 0 ∧ encode (decode (word 9)) ≠ word 9 ∧ encode (decode (word 250)) = word 250 ∧
      encode (decode (word 6568)) ≠ word 6568 := by decide

/-- StepRunsTheDecodedInstruction. -/
theorem witness_word_at_pc : (Instr.sub (r 3) (r 1) (r 2)).wellFormed = true ∧
    (given 10 [] [(10, 361586)]).readMem (given 10 [] [(10, 361586)]).pc = encode (.sub (r 3) (r 1) (r 2)) := by decide

/-- PlacedWordRunsNext. -/
theorem witness_table_word : decodeTableWord 27 361585 = some (.add (r 3) (r 1) (r 2)) := by decide

/-- UnassignedOpcodesRunAsNop, on both sides of `1 .. 8`. -/
theorem witness_unassigned : (given 0 [] [(0, 0)]).fetch.opcode < 1 ∧ (given 0 [] [(0, -121)]).fetch.opcode < 1 ∧
    8 < (given 0 [] [(0, 9)]).fetch.opcode ∧ 8 < (given 0 [] [(0, 121)]).fetch.opcode := by decide

/-- ArchitectureIsDeterministic: two different states with the same architectural state. -/
theorem witness_same_architecture :
    SameArchitecture State.reset { State.reset with alu := ⟨word 1, word 2, .sub, word 5, .N⟩, draws := 9 } ∧
      ({ State.reset with alu := ⟨word 1, word 2, .sub, word 5, .N⟩, draws := 9 } : State) ≠ State.reset :=
  ⟨⟨rfl, fun _ => rfl, fun _ => rfl⟩, by decide⟩

/-- MemoryWriteGoesToTheResult: a row with memory-write enabled and one with it disabled. -/
theorem witness_memWrite : swSignals.memWrite = true ∧ addSignals.memWrite = false := by decide

/-- OnlySwChangesMemory: W1, a step that changes a word of memory. -/
theorem witness_memory_changes : seen (fun t => decide (t.readMem (word (-15)) ≠
    (given 10 [(1, -20), (2, 99)] [(10, 24275705)]).readMem (word (-15))))
      (step (given 10 [(1, -20), (2, 99)] [(10, 24275705)])) = some true := by decide

/-- OnlyTheDestinationChanges: I3, a step that changes a register. -/
theorem witness_register_changes : seen (fun t => decide (t.readReg (r 2) ≠
    (given 10 [] [(10, 3812796351498)]).readReg (r 2))) (step (given 10 [] [(10, 3812796351498)])) = some true := by decide

/-- OnlyTheSourcesMatter: two states that differ in a register the instruction does not read. -/
theorem witness_sources : (given 10 [(3, 4), (1, 7)] []).pc = (given 10 [(3, 5), (1, 7)] []).pc ∧
    SameMemory (given 10 [(3, 4), (1, 7)] []) (given 10 [(3, 5), (1, 7)] []) ∧
      (∀ q ∈ sourcesOf (.addi (r 2) (r 1) 1),
        (given 10 [(3, 5), (1, 7)] []).readReg q = (given 10 [(3, 4), (1, 7)] []).readReg q) ∧
      (given 10 [(3, 5), (1, 7)] []).readReg (r 3) ≠ (given 10 [(3, 4), (1, 7)] []).readReg (r 3) :=
  ⟨rfl, fun _ => rfl, by decide, by decide⟩

/-- OnlyTransfersLeaveTheSequence: J1 and B1 leave the sequence. -/
theorem witness_transfers : seen (fun t => decide (t.pc ≠ (word 10).add Word.one)) (step (given 10 [] [(10, 23915095)])) =
      some true ∧
    seen (fun t => decide (t.pc ≠ (word 10).add Word.one)) (step (given 10 [(1, 3), (2, 3)] [(10, -18771015)])) =
      some true := by decide

/-- StoredWordIsTheNextFetch: at address 0, `Sw r0,r2,1` stores to the next address. -/
theorem witness_stored_next : seen (fun t => decide (t.pc =
    ((given 0 [(2, 7)] []).readReg (r 0)).ripple (Word.ofImm 1))) (exec (.sw (r 0) (r 2) 1) (given 0 [(2, 7)] [])) =
      some true := by decide

/-- SelfJumpIsAFixedPoint: J5 and B4. -/
theorem witness_self_jump : decode (given 10 [] [(10, 7)]).fetch = .jal RegIndex.r0 0 ∧
    decode (given 10 [] [(10, 6)]).fetch = .beq RegIndex.r0 RegIndex.r0 0 := by decide

/-- StepKeepsTheInvariant, ReadsDetermineTheState: a state that is not the reset state. -/
theorem witness_inv : (given 10 [(1, 7), (-13, 2)] [(10, 183952), (-15, 99)]).Inv := ⟨by decide, by decide⟩

/-- PlacedImageIsRead: two distinct addresses, the lowest and the highest. -/
theorem witness_image : (([(word 3812798742493, word 7), (word (-3812798742493), word 1)] :
    List (Address × Word)).map Prod.fst).Nodup := by decide

end Sys2Proof.Tests
end

section
/-! PROOFS. Lemmas every family needs: a field is determined by its value, and an instruction's next state. -/

namespace Sys2Proof

/-- R101: fields of equal value are equal. -/
theorem TritField.val_inj {n : Nat} {f g : TritField n} : f.val = g.val ↔ f = g := by
  refine ⟨fun h => ?_, congrArg TritField.val⟩
  induction n with
  | zero => rw [f.eq_nil, g.eq_nil]
  | succ n ih =>
    obtain ⟨d, f, rfl⟩ := f.exists_cons
    obtain ⟨e, g, rfl⟩ := g.exists_cons
    have hd := d.toInt_bounds
    have he := e.toInt_bounds
    simp only [TritField.val_cons] at h
    have hdigit : d = e := Trit.toInt_inj.mp (by omega)
    have hrest : f = g := ih (by omega)
    rw [hdigit, hrest]

/-- R97: an integer in the range of the width survives encoding. -/
theorem TritField.val_fromValue {n : Nat} {x : Int} (hlow : -Config.maxMagnitude n ≤ x)
    (hhigh : x ≤ Config.maxMagnitude n) : (TritField.fromValue n x).val = x := by
  induction n generalizing x with
  | zero =>
    have hzero : Config.maxMagnitude 0 = 0 := rfl
    rw [TritField.eq_nil (TritField.fromValue 0 x)]
    change 0 = x
    omega
  | succ n ih =>
    obtain ⟨d, q, hcons, hx⟩ := TritField.fromValue_succ n x
    have hd := d.toInt_bounds
    have hn := two_mul_maxMagnitude n
    have hsucc := two_mul_maxMagnitude (n + 1)
    rw [pow_succ] at hsucc
    rw [hcons, TritField.val_cons, ih (by omega) (by omega), hx]

/-- R40: every integer in `-M27 .. +M27` is the value of an address. -/
theorem Word.exists_val_eq {x : Int} (hlow : -Config.m27 ≤ x) (hhigh : x ≤ Config.m27) : ∃ a : Address, a.val = x :=
  ⟨_, TritField.val_fromValue (n := 27) hlow hhigh⟩

/-- R21: index 0 is `r0` alone. -/
theorem RegIndex.val_eq_zero {q : RegIndex} : q.val = 0 ↔ q = RegIndex.r0 := by
  rw [← RegIndex.val_r0, TritField.val_inj]

namespace Machine

/-- The state an instruction's cycle leaves: the execute phase under the instruction's own signals and operands. -/
def nextState (i : Instr) (s : State) : State :=
  s.execute (signalsOf i) (Word.ofImm (immOf i)) (rdOf i) (rs1Of i) (rs2Of i) (s.pc.add Word.one)
    (s.pc.add (Word.ofImm (immOf i)))

/-- R175: every instruction completes, in its `nextState`. -/
theorem exec_eq_next (i : Instr) (s : State) : exec i s = .next (nextState i s) :=
  (exec_eq_runCycle i s).trans (runCycle_eq _ _ _ _ _ _)

/-- R161, R175: a step completes, in the `nextState` of the instruction fetched. -/
theorem step_eq_next_iff {s t : State} : step s = .next t ↔ t = nextState (decode s.fetch) s := by
  rw [step_eq, exec_eq_next, Host.Outcome.next.injEq, eq_comm]

/-- R133 (4): an instruction's destination is the `rd` the decoder passes on, when register write is enabled. -/
theorem destOf_eq_some_iff {i : Instr} {q : RegIndex} :
    destOf i = some q ↔ (signalsOf i).regWrite = true ∧ q = rdOf i := by
  have hdest : destOf i = if (signalsOf i).regWrite then some (rdOf i) else none := by cases i <;> rfl
  rw [hdest]
  split
  · next h => simp [h, eq_comm]
  · next h => simp [h]

end Machine

end Sys2Proof
end

section
/-! PROOFS. The invariant: every cycle keeps it, building the unit meets it, and under it the reads determine the data
(spec/10_state.md R20 to R23 and R33; spec/20_memory.md R40 and R41). -/

namespace Sys2Proof.Machine

/-! ## Every cycle keeps the invariant -/

/-- The execute phase keeps the invariant, whatever the control signals. -/
theorem execute_inv (s : State) (cs : ControlSignals) (imm : Word) (rd rs1 rs2 : RegIndex) (seq target : Word)
    (h : s.Inv) : (s.execute cs imm rd rs1 rs2 seq target).Inv := by
  obtain ⟨hmem, hslot⟩ := h
  refine ⟨?_, ?_⟩
  · rw [execute_mem]
    exact memoryWrite_wf _ _ _ _ (by rwa [runAlu_mem])
  · rw [execute_slot_r0, hslot]

/-- Settles O40: a step is an execute phase, and that keeps the invariant. -/
theorem stepKeepsTheInvariant : Obligations.StepKeepsTheInvariant := by
  intro s t hinv hstep
  rw [step_eq_next_iff.mp hstep]
  exact execute_inv _ _ _ _ _ _ _ _ hinv

/-! ## The state after building -/

theorem reset_regs_slot (j : Fin 27) : State.reset.regs[j] = Word.zero := Vector.getElem_replicate j.isLt

@[simp] theorem reset_readReg (q : RegIndex) : State.reset.readReg q = Word.zero := by
  unfold State.readReg
  rw [reset_regs_slot, ite_self]

@[simp] theorem reset_readMem (addr : Address) : State.reset.readMem addr = Word.zero := Memory.read_nil _

/-- Settles O41: the listing is empty and every slot holds the zero word. -/
theorem resetMeetsTheInvariant : Obligations.ResetMeetsTheInvariant :=
  ⟨reset_mem_wf, reset_regs_slot _⟩

/-- Settles O42. The PC and the latches are as `State.reset` writes them. -/
theorem resetStateIsAllZero : Obligations.ResetStateIsAllZero :=
  ⟨rfl, reset_readReg, reset_readMem, rfl⟩

/-! ## Reads determine the data -/

/-- In a rising listing, the word listed at an address is what the address reads as. -/
theorem Memory.read_of_mem {m : Memory} (hs : m.Pairwise (fun c d => c.1 < d.1)) {k : Int} {w : Word}
    (h : (k, w) ∈ m) : m.read k = w := by
  induction m with
  | nil => simp at h
  | cons c m ih =>
    obtain ⟨hhead, htail⟩ := List.pairwise_cons.mp hs
    rcases List.mem_cons.mp h with rfl | h
    · simp [Memory.read]
    · simp [Memory.read, (hhead _ h).ne, ih htail h]

/-- An address that does not read as the zero word is listed. -/
theorem Memory.mem_of_read_ne {m : Memory} {k : Int} (h : m.read k ≠ Word.zero) : (k, m.read k) ∈ m := by
  induction m with
  | nil => simp at h
  | cons c m ih =>
    obtain ⟨a, w⟩ := c
    by_cases hk : a = k
    · simp [Memory.read, hk]
    · rw [Memory.read, if_neg hk] at h ⊢
      exact List.mem_cons_of_mem _ (ih h)

/-- A cell of one canonical listing stands in any listing that reads alike. -/
theorem Memory.mem_of_read_eq {m n : Memory} (hm : m.wf) (h : ∀ a : Address, n.read a.val = m.read a.val) {c : Cell}
    (hc : c ∈ m) : c ∈ n := by
  obtain ⟨k, w⟩ := c
  obtain ⟨hsorted, hcells⟩ := hm
  obtain ⟨hw, hlow, hhigh⟩ := hcells _ hc
  obtain ⟨a, rfl⟩ := Word.exists_val_eq hlow hhigh
  have hread : n.read a.val = w := (h a).trans (Memory.read_of_mem hsorted hc)
  have hlisted := Memory.mem_of_read_ne (m := n) (k := a.val) (by rwa [hread])
  rwa [hread] at hlisted

/-- A canonical listing lists no cell twice. -/
theorem Memory.nodup {m : Memory} (hm : m.wf) : m.Nodup :=
  hm.1.imp (fun hlt heq => hlt.ne (congrArg Prod.fst heq))

/-- R41: canonical listings that read alike at every address are equal. -/
theorem Memory.eq_of_read_eq {m n : Memory} (hm : m.wf) (hn : n.wf)
    (h : ∀ a : Address, n.read a.val = m.read a.val) : n = m := by
  have hsame : ∀ c, c ∈ n ↔ c ∈ m :=
    fun c => ⟨Memory.mem_of_read_eq hn (fun a => (h a).symm), Memory.mem_of_read_eq hm h⟩
  have hperm : n.Perm m := (List.perm_ext_iff_of_nodup (Memory.nodup hn) (Memory.nodup hm)).mpr hsame
  exact hperm.eq_of_pairwise (fun c d _ _ hcd hdc => absurd (hcd.trans hdc) (lt_irrefl _)) hn.1 hm.1

/-- R21: every slot is the slot of an index. -/
theorem exists_regSlot_eq (j : Fin 27) : ∃ q : RegIndex, regSlot q = j :=
  ⟨RegIndex.ofInt (j.val - 13), by revert j; decide⟩

/-- R22: register files whose slots of `r0` agree and whose registers read alike are equal. -/
theorem regs_eq_of_readReg_eq {s t : State} (hslot : t.regs[regSlot RegIndex.r0] = s.regs[regSlot RegIndex.r0])
    (h : SameRegisters s t) : t.regs = s.regs := by
  have hall : ∀ j : Fin 27, t.regs[j] = s.regs[j] := by
    intro j
    obtain ⟨q, rfl⟩ := exists_regSlot_eq j
    by_cases hq : q.val = 0
    · rwa [RegIndex.val_eq_zero.mp hq]
    · simpa [State.readReg, hq] using h q
  exact Vector.ext (fun j hj => hall ⟨j, hj⟩)

/-- Settles O43: the register file slot by slot, the listing cell by cell. -/
theorem readsDetermineTheState : Obligations.ReadsDetermineTheState := by
  intro s t ⟨hsmem, hsslot⟩ ⟨htmem, htslot⟩ ⟨hpc, hregs, hmem⟩
  exact ⟨hpc, regs_eq_of_readReg_eq (htslot.trans hsslot.symm) hregs, Memory.eq_of_read_eq hsmem htmem hmem⟩

end Sys2Proof.Machine
end

section
/-! PROOFS. Which registers an instruction writes and which it depends on (spec/10_state.md R23 and R25). -/

namespace Sys2Proof.Machine

/-! ## The destination -/

/-- R23, R25: a register that is not the destination, and `r0`, read as before the cycle. -/
theorem nextState_readReg_of_not_dest {i : Instr} {q : RegIndex} (h : ¬(destOf i = some q ∧ q ≠ RegIndex.r0))
    (s : State) : (nextState i s).readReg q = s.readReg q := by
  rw [nextState, execute_readReg, if_neg]
  rintro ⟨hwrite, hq, hzero⟩
  have hrd : q = rdOf i := TritField.val_inj.mp hq
  exact h ⟨destOf_eq_some_iff.mpr ⟨hwrite, hrd⟩, hrd ▸ mt RegIndex.val_eq_zero.mpr hzero⟩

/-- Settles O33: the contrapositive of the frame of `nextState`. -/
theorem onlyTheDestinationChanges : Obligations.OnlyTheDestinationChanges := by
  intro s t q hstep hchanged
  rw [step_eq_next_iff.mp hstep] at hchanged
  by_contra h
  exact hchanged (nextState_readReg_of_not_dest h s)

/-! ## The sources -/

/-- R132, D5: the index passed on as `rs1` is a source, or index 0. -/
theorem rs1Of_mem_sourcesOf (i : Instr) : rs1Of i ∈ sourcesOf i ∨ rs1Of i = RegIndex.r0 := by
  cases i <;> simp [rs1Of, sourcesOf]

/-- R132, D5: the index passed on as `rs2` is a source, or index 0. -/
theorem rs2Of_mem_sourcesOf (i : Instr) : rs2Of i ∈ sourcesOf i ∨ rs2Of i = RegIndex.r0 := by
  cases i <;> simp [rs2Of, sourcesOf]

/-- `r0` reads alike in every two states, so agreement on the sources is agreement on what the decoder passes on. -/
theorem readReg_eq_of_source {s u : State} {l : List RegIndex} {r : RegIndex} (hr : r ∈ l ∨ r = RegIndex.r0)
    (h : ∀ q ∈ l, u.readReg q = s.readReg q) : u.readReg r = s.readReg r := by
  rcases hr with hr | rfl
  · exact h r hr
  · rw [readReg_r0, readReg_r0]

/-- R128, R130: in a cycle that does not observe the unit, no enabled path reads its result or its zero flag. -/
theorem not_aluObserved {cs : ControlSignals} (h : cs.aluObserved ≠ true) :
    cs.memRead = false ∧ cs.memWrite = false ∧ cs.branch = false ∧ (cs.regWrite = true → cs.jump = true) := by
  simpa [ControlSignals.aluObserved, and_assoc] using h

section
variable {s u : State} {cs : ControlSignals} {imm : Word} {rd rs1 rs2 : RegIndex} {seq target : Word}

/-- A cycle that observes the unit latches what its two source registers give. -/
theorem aluRun_alu_congr (hobs : cs.aluObserved = true) (h1 : u.readReg rs1 = s.readReg rs1)
    (h2 : u.readReg rs2 = s.readReg rs2) : (aluRun u cs imm rs1 rs2).alu = (aluRun s cs imm rs1 rs2).alu := by
  unfold aluRun
  rw [runAlu_observed u hobs, runAlu_observed s hobs, h1, h2]

/-- The next PC depends on the source registers alone, given the sums it selects from. -/
theorem execute_pc_congr (h1 : u.readReg rs1 = s.readReg rs1) (h2 : u.readReg rs2 = s.readReg rs2) :
    (u.execute cs imm rd rs1 rs2 seq target).pc = (s.execute cs imm rd rs1 rs2 seq target).pc := by
  rw [execute_pc, execute_pc]
  by_cases hobs : cs.aluObserved = true
  · rw [aluRun_alu_congr hobs h1 h2]
  · obtain ⟨-, -, hbranch, -⟩ := not_aluObserved hobs
    simp [nextPc, hbranch]

/-- Memory after the cycle depends on memory before it and on the source registers. -/
theorem execute_readMem_congr (h1 : u.readReg rs1 = s.readReg rs1) (h2 : u.readReg rs2 = s.readReg rs2)
    (hmem : SameMemory s u) :
    SameMemory (s.execute cs imm rd rs1 rs2 seq target) (u.execute cs imm rd rs1 rs2 seq target) := by
  intro addr
  rw [execute_readMem, execute_readMem, h2, hmem addr]
  by_cases hobs : cs.aluObserved = true
  · rw [aluRun_alu_congr hobs h1 h2]
  · obtain ⟨-, hwrite, -, -⟩ := not_aluObserved hobs
    simp [hwrite]

/-- R167, R168: a register the cycle writes reads the value selected for it, the word loaded being read from memory as
the cycle leaves it. -/
theorem execute_readReg_rd (hwrite : cs.regWrite = true) (hrd : rd.val ≠ 0) :
    (s.execute cs imm rd rs1 rs2 seq target).readReg rd =
      writebackValue cs
        ((s.execute cs imm rd rs1 rs2 seq target).memoryRead cs (aluRun s cs imm rs1 rs2).alu.result)
        seq (aluRun s cs imm rs1 rs2).alu.result := by
  rw [execute_readReg, if_pos ⟨hwrite, rfl, hrd⟩]
  unfold State.memoryRead
  rw [readMem_congr (execute_mem s cs imm rd rs1 rs2 seq target)]

/-- The word written to the destination depends on memory before the cycle and on the source registers. -/
theorem execute_readReg_rd_congr (h1 : u.readReg rs1 = s.readReg rs1) (h2 : u.readReg rs2 = s.readReg rs2)
    (hmem : SameMemory s u) (hsel : cs.memToReg = cs.memRead) (hwrite : cs.regWrite = true) :
    (u.execute cs imm rd rs1 rs2 seq target).readReg rd = (s.execute cs imm rd rs1 rs2 seq target).readReg rd := by
  by_cases hrd : rd.val = 0
  · rw [RegIndex.val_eq_zero.mp hrd, readReg_r0, readReg_r0]
  rw [execute_readReg_rd hwrite hrd, execute_readReg_rd hwrite hrd]
  by_cases hobs : cs.aluObserved = true
  · rw [aluRun_alu_congr hobs h1 h2]
    unfold State.memoryRead
    rw [execute_readMem_congr h1 h2 hmem]
  · obtain ⟨hread, -, -, hjump⟩ := not_aluObserved hobs
    simp [writebackValue, hsel, hread, hjump hwrite]

end

/-- R168, C5: `mem_to_reg` is `mem_read` in every row of the decode table. -/
theorem signalsOf_memToReg (i : Instr) : (signalsOf i).memToReg = (signalsOf i).memRead := by
  cases i <;> rfl

/-- Settles O34: both states complete, and the execute phase reads the sources, the PC and memory alone. -/
theorem onlyTheSourcesMatter : Obligations.OnlyTheSourcesMatter := by
  intro i s u hpc hmem hsrc
  have h1 : u.readReg (rs1Of i) = s.readReg (rs1Of i) := readReg_eq_of_source (rs1Of_mem_sourcesOf i) hsrc
  have h2 : u.readReg (rs2Of i) = s.readReg (rs2Of i) := readReg_eq_of_source (rs2Of_mem_sourcesOf i) hsrc
  refine ⟨nextState i s, nextState i u, exec_eq_next i s, exec_eq_next i u, ?_⟩
  unfold nextState
  rw [hpc]
  refine ⟨execute_pc_congr h1 h2, execute_readMem_congr h1 h2 hmem, fun q hq => ?_⟩
  obtain ⟨hwrite, rfl⟩ := destOf_eq_some_iff.mp hq
  exact execute_readReg_rd_congr h1 h2 hmem (signalsOf_memToReg i) hwrite

end Sys2Proof.Machine
end

section
/-! PROOFS. What Sw and Lw do to memory and registers, and that a stored word is what a later load or fetch of its address
finds (spec/20_memory.md R42, R51 and R54). -/

namespace Sys2Proof.Machine

/-! ## The effective address -/

/-- R183, R184: a cycle that observes the unit and adds the immediate latches the sum of its base register and offset. -/
theorem aluRun_result_of_add_imm (s : State) {cs : ControlSignals} (hobs : cs.aluObserved = true) (hop : cs.aluOp = .add)
    (hsrc : cs.aluSrc = .imm) (imm : Word) (rs1 rs2 : RegIndex) :
    (aluRun s cs imm rs1 rs2).alu.result = (s.readReg rs1).ripple imm := by
  unfold aluRun
  rw [runAlu_observed s hobs, hop, hsrc]
  rfl

/-! ## Sw and Lw -/

/-- R184, R42: after a Sw its address reads the word stored, and every other address reads as before. -/
theorem nextState_sw_readMem (rs1 rs2 : RegIndex) (imm : Int) (s : State) (addr : Address) :
    (nextState (.sw rs1 rs2 imm) s).readMem addr =
      if addr = (s.readReg rs1).ripple (Word.ofImm imm) then s.readReg rs2 else s.readMem addr := by
  have haddr := aluRun_result_of_add_imm s (cs := swSignals) rfl rfl rfl (Word.ofImm imm) rs1 rs2
  have hwrite : swSignals.memWrite = true := rfl
  simp only [nextState, signalsOf, immOf, rs1Of, rs2Of, execute_readMem, haddr, hwrite, true_and, TritField.val_inj]

/-- R184: a Sw writes no register. -/
theorem nextState_sw_readReg (rs1 rs2 : RegIndex) (imm : Int) (s : State) (q : RegIndex) :
    (nextState (.sw rs1 rs2 imm) s).readReg q = s.readReg q :=
  nextState_readReg_of_not_dest (by simp [destOf]) s

/-- R183: a Lw writes no memory. -/
theorem nextState_lw_readMem (rd rs1 : RegIndex) (imm : Int) (s : State) (addr : Address) :
    (nextState (.lw rd rs1 imm) s).readMem addr = s.readMem addr := by
  rw [nextState, execute_readMem, if_neg]
  simp [signalsOf, lwSignals]

/-- R183, R23: after a Lw its destination reads the word at its address, or the zero word for `r0`. -/
theorem nextState_lw_readReg_rd (rd rs1 : RegIndex) (imm : Int) (s : State) :
    (nextState (.lw rd rs1 imm) s).readReg rd =
      if rd = RegIndex.r0 then Word.zero else s.readMem ((s.readReg rs1).ripple (Word.ofImm imm)) := by
  split
  · next hrd => rw [hrd, readReg_r0]
  · next hrd =>
    have haddr := aluRun_result_of_add_imm s (cs := lwSignals) rfl rfl rfl (Word.ofImm imm) rs1 RegIndex.r0
    calc (nextState (.lw rd rs1 imm) s).readReg rd
      _ = (nextState (.lw rd rs1 imm) s).readMem (aluRun s lwSignals (Word.ofImm imm) rs1 RegIndex.r0).alu.result :=
        execute_readReg_rd (cs := lwSignals) rfl (mt RegIndex.val_eq_zero.mp hrd)
      _ = s.readMem ((s.readReg rs1).ripple (Word.ofImm imm)) := by rw [haddr, nextState_lw_readMem]

/-! ## A stored word is found again -/

/-- Settles O37: the store leaves the base register alone, so the load reads the address just stored to. -/
theorem loadAfterStoreGivesTheWord : Obligations.LoadAfterStoreGivesTheWord := by
  intro rd rs1 rs2 imm s _
  refine ⟨nextState (.sw rs1 rs2 imm) s, nextState (.lw rd rs1 imm) (nextState (.sw rs1 rs2 imm) s),
    exec_eq_next _ _, exec_eq_next _ _, ?_⟩
  rw [nextState_lw_readReg_rd, nextState_sw_readReg, nextState_sw_readMem, if_pos rfl]

/-- Settles O38: the fetch is a read of memory at the PC, and that address holds the word stored. -/
theorem storedWordIsTheNextFetch : Obligations.StoredWordIsTheNextFetch := by
  intro rs1 rs2 imm s t _ hstore hpc
  have ht : nextState (.sw rs1 rs2 imm) s = t := by simpa [exec_eq_next] using hstore
  have hfetch : t.fetch = s.readReg rs2 := by
    rw [State.fetch, readPc_eq, hpc, ← ht, nextState_sw_readMem, if_pos rfl]
  rw [step_eq, hfetch]

end Sys2Proof.Machine
end

section
/-! PROOFS. The encoder of one field, for every integer and every width (spec/40_ternary_word.md R95 to R97). -/

namespace Sys2Proof.TritField

/-- R95: encoding loses a multiple of `3^N`. -/
theorem exists_eq_val_fromValue_add (n : Nat) (x : Int) : ∃ k : Int, x = (fromValue n x).val + 3 ^ n * k := by
  induction n generalizing x with
  | zero => exact ⟨x, by rw [eq_nil (fromValue 0 x)]; simp [val]⟩
  | succ n ih =>
    obtain ⟨d, q, hcons, hx⟩ := fromValue_succ n x
    obtain ⟨k, hk⟩ := ih q
    refine ⟨k, ?_⟩
    rw [hcons, val_cons, hx, pow_succ]
    linear_combination 3 * hk

/-- R96: the encoded field's value is the balanced residue. -/
theorem val_fromValue_eq_bal (n : Nat) (x : Int) : (fromValue n x).val = bal n x := by
  obtain ⟨k, hk⟩ := exists_eq_val_fromValue_add n x
  obtain ⟨hlow, hhigh⟩ := val_bounds (fromValue n x)
  have hrange := two_mul_maxMagnitude n
  have hshift : x + Config.maxMagnitude n = (fromValue n x).val + Config.maxMagnitude n + 3 ^ n * k := by omega
  rw [bal, hshift, Nat.cast_pow, Nat.cast_ofNat, Int.add_mul_emod_self_left,
    Int.emod_eq_of_lt (by omega) (by omega)]
  omega

/-- R97: encoding a field's value gives the field back. -/
@[simp] theorem fromValue_val {n : Nat} (f : TritField n) : fromValue n f.val = f :=
  val_inj.mp (val_fromValue (val_bounds f).1 (val_bounds f).2)

@[simp] theorem fromValue_zero (n : Nat) : fromValue n 0 = zero n := by
  rw [← val_zero n, fromValue_val]

end Sys2Proof.TritField
end

section
/-! PROOFS. The instruction word codec: the fields of a word, the decoder by the opcode, and the round trips of the
encoder (spec/30_encoding.md R60 to R72). -/

namespace Sys2Proof

/-! ## The fields of a word -/

namespace Word

section
variable (op : Int) (rd rs1 rs2 : RegIndex) (imm : Int)

/-- The opcode field holds the opcode wrapped by `fv_5`. -/
theorem opcode_ofFields : (ofFields op rd rs1 rs2 imm).opcode = (TritField.fromValue 5 op).val := by
  have h : (ofFields op rd rs1 rs2 imm).slice 0 5 (by decide) = TritField.fromValue 5 op :=
    TritField.ext_trits (Laws.ofFields_opcodeTrits op rd rs1 rs2 imm)
  rw [opcode, h]

@[simp] theorem rd_ofFields : (ofFields op rd rs1 rs2 imm).rd = rd := by
  apply TritField.ext_trits
  simp [Word.rd, ofFields, TritField.slice, TritField.length_eq]

@[simp] theorem rs1_ofFields : (ofFields op rd rs1 rs2 imm).rs1 = rs1 := by
  apply TritField.ext_trits
  simp [Word.rs1, ofFields, TritField.slice, List.drop_append, List.drop_of_length_le, TritField.length_eq]

@[simp] theorem rs2_ofFields : (ofFields op rd rs1 rs2 imm).rs2 = rs2 := by
  apply TritField.ext_trits
  simp [Word.rs2, ofFields, TritField.slice, List.drop_append, List.drop_of_length_le, TritField.length_eq]

@[simp] theorem immField_ofFields : (ofFields op rd rs1 rs2 imm).immField = TritField.fromValue 13 imm := by
  apply TritField.ext_trits
  simp [Word.immField, ofFields, TritField.slice, List.drop_append, List.drop_of_length_le, TritField.length_eq]

@[simp] theorem imm_ofFields : (ofFields op rd rs1 rs2 imm).imm = TritField.bal 13 imm := by
  rw [Word.imm, immField_ofFields, TritField.val_fromValue_eq_bal]

/-- R64 for the word with given fields. -/
theorem val_ofFields : (ofFields op rd rs1 rs2 imm).val =
    (TritField.fromValue 5 op).val + 243 * rd.val + 6561 * rs1.val + 177147 * rs2.val +
      4782969 * (TritField.fromValue 13 imm).val := by
  simp only [TritField.val, ofFields, valueOfTrits_append, List.length_append, TritField.length_eq]
  norm_num

end

/-- R61: the five fields lie side by side and cover the word. -/
@[simp] theorem ofFields_fields (w : Word) : ofFields w.opcode w.rd w.rs1 w.rs2 w.imm = w := by
  apply TritField.ext_trits
  simp only [ofFields, opcode, imm, TritField.fromValue_val, rd, rs1, rs2, immField, TritField.slice, List.drop_zero]
  simp only [← List.take_add]
  rw [List.take_of_length_le w.length_eq.le]

@[simp] theorem fromValue_imm (w : Word) : TritField.fromValue 13 w.imm = w.immField :=
  TritField.fromValue_val w.immField

/-- R61: with its own opcode, a word is the word of given fields exactly when its other fields are those. -/
theorem ofFields_eq_iff {w : Word} {op : Int} (hop : w.opcode = op) {rd rs1 rs2 : RegIndex} {imm : Int} :
    ofFields op rd rs1 rs2 imm = w ↔
      w.rd = rd ∧ w.rs1 = rs1 ∧ w.rs2 = rs2 ∧ w.immField = TritField.fromValue 13 imm := by
  constructor
  · rintro rfl
    simp
  · rintro ⟨rfl, rfl, rfl, himm⟩
    have hsame : ofFields op w.rd w.rs1 w.rs2 imm = ofFields w.opcode w.rd w.rs1 w.rs2 w.imm := by
      simp only [ofFields, hop, ← himm, fromValue_imm]
    rw [hsame, ofFields_fields]

/-- The opcode of a word made of fields, for an opcode that fits its field. -/
theorem opcode_ofFields_of_range {op : Int} (hlow : -121 ≤ op) (hhigh : op ≤ 121) (rd rs1 rs2 : RegIndex)
    (imm : Int) :
    (ofFields op rd rs1 rs2 imm).opcode = op :=
  (opcode_ofFields op rd rs1 rs2 imm).trans (TritField.val_fromValue hlow hhigh)

end Word

/-- Settles O12: the value of a word made of fields, at the word's own fields. -/
theorem wordValueIsTheWeightedFieldSum : Obligations.WordValueIsTheWeightedFieldSum := by
  intro w
  have h := Word.val_ofFields w.opcode w.rd w.rs1 w.rs2 w.imm
  rw [Word.ofFields_fields] at h
  simpa [Word.opcode, Word.imm] using h

/-! ## The decoder -/

/-- The instruction that R67 and R69 give an opcode and the fields of its word. -/
def Instr.ofFields (op : Int) (rd rs1 rs2 : RegIndex) (imm : Int) : Instr :=
  if op = 1 then .add rd rs1 rs2 else if op = 2 then .sub rd rs1 rs2 else if op = 3 then .addi rd rs1 imm
  else if op = 4 then .lw rd rs1 imm else if op = 5 then .sw rs1 rs2 imm else if op = 6 then .beq rs1 rs2 imm
  else if op = 7 then .jal rd imm else if op = 8 then .lui rd imm else .nop

theorem decode_eq_ofFields (w : Word) : decode w = Instr.ofFields w.opcode w.rd w.rs1 w.rs2 w.imm := by
  unfold decode Instr.ofFields
  split <;> simp_all

/-- R68: an opcode outside `1 .. 8` decodes as Nop. -/
theorem decode_of_unassigned {w : Word} (h : w.opcode < 1 ∨ 8 < w.opcode) : decode w = .nop := by
  rw [decode_eq_ofFields, Instr.ofFields]
  iterate 8 rw [if_neg (by omega)]

/-- R69, R71: what decodes from the word with given fields, for an opcode that fits its field. -/
theorem decode_ofFields {op : Int} (hlow : -121 ≤ op) (hhigh : op ≤ 121) (rd rs1 rs2 : RegIndex) (imm : Int) :
    decode (Word.ofFields op rd rs1 rs2 imm) = Instr.ofFields op rd rs1 rs2 (TritField.bal 13 imm) := by
  simp [decode_eq_ofFields, Word.opcode_ofFields_of_range hlow hhigh]

/-- Settles O8: each word written out is one closed computation. -/
theorem specWordsDecodeAsWritten : Obligations.SpecWordsDecodeAsWritten :=
  ⟨by decide, by decide, by decide, by decide, by decide⟩

/-! ## Decoding an encoded instruction -/

/-- R72 (2): the decoder reads back what the encoder wrote, with the immediate wrapped into its field. -/
theorem decode_encode (i : Instr) : decode (encode i) = i.wrapImm := by
  cases i <;> exact decode_ofFields (by decide) (by decide) _ _ _ _

/-- R61, R96: an immediate that fits its field is not wrapped. -/
theorem bal_of_immInRange {imm : Int} (h : Instr.immInRange imm) : TritField.bal 13 imm = imm := by
  rw [← TritField.val_fromValue_eq_bal]
  exact TritField.val_fromValue h.1 h.2

/-- R72 (1): wrapping changes no well-formed instruction. -/
theorem wrapImm_of_wellFormed {i : Instr} (h : i.wellFormed = true) : i.wrapImm = i := by
  cases i with
  | add | sub | nop => rfl
  | addi | lw | sw | beq | jal | lui => simp [Instr.wrapImm, bal_of_immInRange (of_decide_eq_true h)]

/-- Settles O10: the general round trip of every instruction term. -/
theorem decodeOfEncodeWrapsTheImmediate : Obligations.DecodeOfEncodeWrapsTheImmediate :=
  decode_encode

/-- Settles O9: wrapping leaves a well-formed instruction as it is. -/
theorem decodeOfEncodeIsTheInstruction : Obligations.DecodeOfEncodeIsTheInstruction := by
  intro i hwf
  rw [decode_encode, wrapImm_of_wellFormed hwf]

/-- Settles O13: the word with the value of given fields is the word made of them. -/
theorem decodeReadsTheFieldValues : Obligations.DecodeReadsTheFieldValues := by
  intro w op imm rd rs1 rs2 hlow hhigh himm hval
  have hw : w = Word.ofFields op rd rs1 rs2 imm := by
    rw [← TritField.val_inj, hval, Word.val_ofFields, TritField.val_fromValue hlow hhigh,
      TritField.val_fromValue himm.1 himm.2]
  rw [hw, decode_ofFields hlow hhigh, bal_of_immInRange himm]
  rfl

/-! ## Encoding a decoded word -/

/-- R71, D4: Nop is encoded as the zero word. -/
theorem encode_nop : encode .nop = Word.zero := by decide

/-- Settles O11: by the opcode, which says which fields the encoder copies and which it writes as `0`. -/
theorem encodeOfDecodeIsTheWord : Obligations.EncodeOfDecodeIsTheWord := by
  intro w
  by_cases h : w.opcode < 1 ∨ 8 < w.opcode
  · have hassigned : ∀ op : Int, 1 ≤ op ∧ op ≤ 8 → w.opcode ≠ op := by omega
    rw [decode_of_unassigned h, encode_nop]
    simp [h, hassigned, eq_comm]
  · obtain h | h | h | h | h | h | h | h :
        w.opcode = 1 ∨ w.opcode = 2 ∨ w.opcode = 3 ∨ w.opcode = 4 ∨
          w.opcode = 5 ∨ w.opcode = 6 ∨ w.opcode = 7 ∨ w.opcode = 8 := by omega
    all_goals simp [decode_eq_ofFields, Instr.ofFields, encode, Word.ofFields_eq_iff h, h]

end Sys2Proof
end

section
/-! PROOFS. What runs for an opcode that is not assigned: the cycle of Nop (spec/30_encoding.md R68;
spec/45_instructions.md R188). -/

namespace Sys2Proof.Machine

theorem nextState_nop_pc (s : State) : (nextState .nop s).pc = TritField.fromValue 27 (s.pc.val + 1) := by
  have hseq : (nextState .nop s).pc = s.pc.add Word.one := rfl
  rw [hseq, Word.add, Word.val_one]

theorem nextState_nop_sameRegisters (s : State) : SameRegisters s (nextState .nop s) :=
  fun _ => nextState_readReg_of_not_dest (by simp [destOf]) s

theorem nextState_nop_sameMemory (s : State) : SameMemory s (nextState .nop s) := by
  intro addr
  rw [nextState, execute_readMem, if_neg]
  simp [signalsOf, nopSignals]

/-- Settles O28: the word decodes as Nop, whose cycle only advances the PC. -/
theorem unassignedOpcodesRunAsNop : Obligations.UnassignedOpcodesRunAsNop := by
  intro s h
  refine ⟨nextState .nop s, ?_, nextState_nop_pc s, nextState_nop_sameRegisters s, nextState_nop_sameMemory s⟩
  rw [step_eq_next_iff, decode_of_unassigned h]

end Sys2Proof.Machine
end

section
/-! PROOFS. The ternary word encoder/decoder: the balanced residue, negation, widening, equality and the zero word
(spec/40_ternary_word.md R95 to R102). -/

namespace Sys2Proof

/-! ## The balanced residue -/

namespace TritField

/-- R96: congruent integers have one balanced residue. -/
theorem bal_congr {n : Nat} {x y : Int} (h : (3 : Int) ^ n ∣ y - x) : bal n x = bal n y := by
  have hmod : x ≡ y [ZMOD (3 ^ n : Nat)] := Int.modEq_iff_dvd.mpr (by exact_mod_cast h)
  rw [bal, bal, (hmod.add_right _).eq]

/-- R96: a field is its own value's encoding, so it is the encoding of every integer congruent to its value. -/
theorem eq_fromValue_of_dvd {n : Nat} {v : Int} {f : TritField n} (h : (3 : Int) ^ n ∣ v - f.val) :
    f = fromValue n v := by
  rw [← val_inj]
  calc f.val
    _ = (fromValue n f.val).val := by rw [fromValue_val]
    _ = bal n f.val := val_fromValue_eq_bal n f.val
    _ = bal n v := bal_congr h
    _ = (fromValue n v).val := (val_fromValue_eq_bal n v).symm

end TritField

/-- Settles O1: the check never fails, and what the encoding loses is a multiple of `3^N`. -/
theorem fromValueNeverFailsAndWraps : Obligations.FromValueNeverFailsAndWraps := by
  intro n v
  obtain ⟨k, hk⟩ := TritField.exists_eq_val_fromValue_add n v
  exact ⟨TritField.fromValue n v, TritField.fromValue?_eq n v, k, by omega⟩

/-- Settles O2: the value of the encoding, and its uniqueness among the congruent fields. -/
theorem fromValueIsTheBalancedResidue : Obligations.FromValueIsTheBalancedResidue :=
  fun n v => ⟨TritField.val_fromValue_eq_bal n v, fun _ => TritField.eq_fromValue_of_dvd⟩

/-- Settles O3: the third law is the first at an encoded field. -/
theorem ternaryRoundTrips : Obligations.TernaryRoundTrips :=
  ⟨fun _ f => TritField.fromValue_val f, fun _ _ => TritField.val_fromValue,
    fun n x _ _ => TritField.fromValue_val (TritField.fromValue n x)⟩

/-! ## Negation -/

/-- R98, on bare trits. -/
@[simp] theorem valueOfTrits_map_neg (ds : List Trit) : valueOfTrits (ds.map Trit.neg) = -valueOfTrits ds := by
  induction ds with
  | nil => rfl
  | cons d ds ih =>
    simp only [List.map_cons, valueOfTrits_cons, Trit.toInt_neg, ih]
    ring

namespace TritField

@[simp] theorem val_neg {n : Nat} (f : TritField n) : f.neg.val = -f.val := valueOfTrits_map_neg f.trits

@[simp] theorem t_neg {n : Nat} (f : TritField n) (i : Fin n) : f.neg.t i = (f.t i).neg := List.getElem_map Trit.neg

end TritField

/-- Settles O4: the value by the flipped digits' sum, the trits position by position. -/
theorem negationIsExact : Obligations.NegationIsExact :=
  fun _ f => ⟨f.val_neg, f.t_neg⟩

/-! ## Widening -/

namespace TritField

/-- R99: the `0` trits above the field weigh nothing. -/
@[simp] theorem val_sext {n : Nat} (f : TritField n) (h : n ≤ 27) : (f.sext h).val = f.val := by
  rw [val, sext_trits, valueOfTrits_append, valueOfTrits_zeros, mul_zero, add_zero, val]

/-- R99: the trits of a widened field. -/
theorem t_sext {n : Nat} (f : TritField n) (hn : n ≤ 27) (i : Fin 27) :
    (f.sext hn).t i = if h : i.val < n then f.t ⟨i.val, h⟩ else .Z := by
  simp only [t, sext_trits, List.getElem_append, f.length_eq, List.getElem_replicate]

end TritField

/-- Settles O5: a widened field is the encoding of its own value, which is that of the field. -/
theorem wideningKeepsTheValue : Obligations.WideningKeepsTheValue := by
  intro n f hn
  have hval : (f.sext hn).val = f.val := f.val_sext hn
  have henc : f.sext hn = TritField.fromValue 27 f.val := by rw [← hval, TritField.fromValue_val]
  exact ⟨hval, henc, f.t_sext hn⟩

/-! ## Equality -/

/-- R101: fields with the same trit at every position are equal. -/
theorem TritField.ext_t {n : Nat} {f g : TritField n} (h : ∀ i : Fin n, f.t i = g.t i) : f = g := by
  apply TritField.ext_trits
  apply List.ext_getElem (f.length_eq.trans g.length_eq.symm)
  intro i hi _
  exact h ⟨i, hi.trans_eq f.length_eq⟩

/-- Settles O6: fields are determined by their trits, and by their values. -/
theorem fieldsAreEqualWhenTheirValuesAre : Obligations.FieldsAreEqualWhenTheirValuesAre :=
  fun _ _ _ => ⟨⟨fun h _ => h ▸ rfl, TritField.ext_t⟩, TritField.val_inj.symm⟩

/-! ## The zero word -/

/-- R102: the zero word is the only word of value 0. -/
theorem Word.val_eq_zero {w : Word} : w.val = 0 ↔ w = Word.zero := by
  rw [← Word.val_zero, TritField.val_inj]

@[simp] theorem TritField.t_zero (n : Nat) (i : Fin n) : (TritField.zero n).t i = .Z := List.getElem_replicate _

/-- R102, R68: the zero word is what Nop is encoded as, so it decodes as Nop. -/
theorem decode_zero : decode Word.zero = .nop := by
  rw [← encode_nop, decode_encode, Instr.wrapImm]

/-- Settles O7: by value, by trits, by the reads of the state after building, and by the decoder. -/
theorem zeroWordIsTheOnlyWordOfValueZero : Obligations.ZeroWordIsTheOnlyWordOfValueZero :=
  ⟨fun _ => Word.val_eq_zero, TritField.t_zero 27, Machine.reset_readReg, Machine.reset_readMem, decode_zero⟩

end Sys2Proof
end

section
/-! PROOFS. Which instructions change memory, where and to what (spec/42_instruction_decoder.md R133 (5);
spec/44_cycle.md R166). -/

namespace Sys2Proof.Machine

/-- R133 (5): memory write is enabled in the row of Sw alone. -/
theorem signalsOf_memWrite_iff {i : Instr} :
    (signalsOf i).memWrite = true ↔ ∃ (rs1 rs2 : RegIndex) (imm : Int), i = .sw rs1 rs2 imm := by
  cases i with
  | sw rs1 rs2 imm => exact iff_of_true rfl ⟨rs1, rs2, imm, rfl⟩
  | add | sub | addi | lw | beq | jal | lui | nop => exact iff_of_false Bool.false_ne_true (by simp)

/-- R166: without memory write every address reads as before the cycle. -/
theorem nextState_readMem_of_not_memWrite {i : Instr} (h : (signalsOf i).memWrite ≠ true) (s : State)
    (addr : Address) : (nextState i s).readMem addr = s.readMem addr := by
  rw [nextState, execute_readMem, if_neg (fun hwrite => h hwrite.1)]

/-- Settles O32: a change needs memory write, so the instruction is a Sw, and a Sw changes its own address alone. -/
theorem onlySwChangesMemory : Obligations.OnlySwChangesMemory := by
  intro s t addr hstep hchanged
  obtain rfl := step_eq_next_iff.mp hstep
  have hwrite : (signalsOf (decode s.fetch)).memWrite = true :=
    of_not_not (fun h => hchanged (nextState_readMem_of_not_memWrite h s addr))
  obtain ⟨rs1, rs2, imm, hsw⟩ := signalsOf_memWrite_iff.mp hwrite
  rw [hsw, nextState_sw_readMem] at hchanged ⊢
  have haddr : addr = (s.readReg rs1).ripple (Word.ofImm imm) := of_not_not (fun h => hchanged (if_neg h))
  exact ⟨rs1, rs2, imm, rfl, haddr, if_pos haddr⟩

end Sys2Proof.Machine
end

section
/-! PROOFS. The arithmetic unit: the ripple is wrapped addition, and what the zero flag tests (spec/43_alu.md R141 to
R148). -/

namespace Sys2Proof

/-! ## Words: the ripple, differences and zero trits -/

/-- R143: no value is lost in the ripple; what leaves the last adder is a carry of weight `3^length`. -/
theorem rippleTrits_value (c : Trit) (as bs : List Trit) (h : as.length = bs.length) :
    ∃ carry : Trit, valueOfTrits as + valueOfTrits bs + c.toInt =
      valueOfTrits (rippleTrits c as bs) + 3 ^ as.length * carry.toInt := by
  induction as generalizing c bs with
  | nil => exact ⟨c, by rw [List.length_eq_zero_iff.mp h.symm]; simp [rippleTrits]⟩
  | cons a as ih =>
    cases bs with
    | nil => simp at h
    | cons b bs =>
      obtain ⟨carry, hrest⟩ := ih (fullTritAdder a b c).2 bs (by simpa using h)
      have hdigit := fullTritAdder_value a b c
      refine ⟨carry, ?_⟩
      simp only [rippleTrits, valueOfTrits_cons, List.length_cons, pow_succ]
      linear_combination hdigit + 3 * hrest

/-- R147: the ripple is the encoding of the sum, because the discarded carry weighs `3^27`. -/
theorem Word.ripple_eq_fromValue (a b : Word) : a.ripple b = TritField.fromValue 27 (a.val + b.val) := by
  obtain ⟨carry, hsum⟩ := rippleTrits_value .Z a.trits b.trits (a.length_eq.trans b.length_eq.symm)
  rw [a.length_eq, Trit.toInt, add_zero] at hsum
  exact TritField.eq_fromValue_of_dvd ⟨carry.toInt, sub_eq_of_eq_add' hsum⟩

/-- R148: a difference wraps to zero only when its operands are equal, since congruent fields are the same field. -/
theorem TritField.fromValue_sub_eq_zero_iff {n : Nat} {f g : TritField n} :
    fromValue n (f.val - g.val) = zero n ↔ f = g := by
  constructor
  · intro h
    obtain ⟨k, hk⟩ := exists_eq_val_fromValue_add n (f.val - g.val)
    rw [h, val_zero, zero_add] at hk
    calc f
      _ = fromValue n f.val := (fromValue_val f).symm
      _ = g := (eq_fromValue_of_dvd ⟨k, hk⟩).symm
  · rintro rfl
    rw [sub_self, fromValue_zero]

/-- R102: the zero word is the word whose trits are all Zero. -/
theorem Word.forall_t_eq_Z_iff {w : Word} : (∀ i : Fin 27, w.t i = .Z) ↔ w = Word.zero :=
  ⟨fun h => TritField.ext_t (fun i => (h i).trans (TritField.t_zero 27 i).symm), fun h => h ▸ TritField.t_zero 27⟩

namespace Machine

/-! ## The results -/

/-- R144, R147: SUB's result is the encoding of the difference. -/
theorem aluResult_sub (a b : Word) : aluResult .sub a b = TritField.fromValue 27 (a.val - b.val) := by
  rw [aluResult, Word.ripple_eq_fromValue, TritField.val_neg, sub_eq_add_neg]

/-- Settles O14: ADD and SUB give the encoding of the sum and of the difference, whose value is the balanced residue. -/
theorem rippleIsWrappedAddition : Obligations.RippleIsWrappedAddition := by
  intro a b
  refine ⟨Word.ripple_eq_fromValue a b, ?_, ?_, rfl⟩
  · rw [aluResult, Word.ripple_eq_fromValue, TritField.val_fromValue_eq_bal]
  · rw [aluResult_sub, TritField.val_fromValue_eq_bal]

/-! ## The zero flag -/

/-- R146: only the word of value 0 has no digit other than Zero. -/
theorem zeroFlagOf_eq (w : Word) : zeroFlagOf w = if w.val = 0 then .P else .Z := by
  have hall : w.trits.all (· == .Z) = true ↔ w = Word.zero := by
    refine ⟨fun h => TritField.ext_trits ?_, fun h => h ▸ by decide⟩
    exact List.eq_replicate_iff.mpr ⟨w.length_eq, by simpa using h⟩
  simp only [zeroFlagOf, hall, Word.val_eq_zero]

theorem zeroFlagOf_eq_P_iff {w : Word} : zeroFlagOf w = .P ↔ w = Word.zero := by
  simp [zeroFlagOf_eq, Word.val_eq_zero]

/-- R148: SUB's flag is Positive exactly on equal operands. -/
theorem zeroFlagOf_sub_eq_P_iff {a b : Word} : zeroFlagOf (aluResult .sub a b) = .P ↔ a = b := by
  rw [zeroFlagOf_eq_P_iff, aluResult_sub]
  exact TritField.fromValue_sub_eq_zero_iff

/-- Settles O15: `execute` latches the result's own flag. -/
theorem zeroFlagOfDifferenceTestsEquality : Obligations.ZeroFlagOfDifferenceTestsEquality :=
  fun _ _ _ => ⟨fun _ => zeroFlagOf_eq _, zeroFlagOf_sub_eq_P_iff⟩

/-- R165: whichever instruction ran, the latched flag is that of the latched result. -/
theorem nextState_zeroFlag (i : Instr) (s : State) :
    (nextState i s).alu.zeroFlag = zeroFlagOf (nextState i s).alu.result := by
  obtain ⟨x, y, op, halu⟩ := runAlu_executed s (signalsOf i) (s.readReg (rs1Of i))
    (operandB (signalsOf i).aluSrc (Word.ofImm (immOf i)) (s.readReg (rs2Of i)))
  rw [nextState, execute_alu, halu]

/-- Settles O16: the flag is Positive on the word of value 0, which is the word of 27 Zero trits. -/
theorem everyCycleSetsTheZeroFlag : Obligations.EveryCycleSetsTheZeroFlag := by
  intro s t hstep
  obtain rfl := step_eq_next_iff.mp hstep
  simp only [nextState_zeroFlag, zeroFlagOf_eq, Word.forall_t_eq_Z_iff, Word.val_eq_zero]

end Machine

end Sys2Proof
end

section
/-! PROOFS. Every step and every run completes, and the architecture alone decides where they lead
(spec/44_cycle.md R161, R162, R173, R175 and R177). -/

namespace Sys2Proof.Machine

/-! ## The instruction a step runs -/

/-- R161: a step runs the instruction that the word at the PC decodes to. -/
theorem step_eq_exec_of_decode {s : State} {i : Instr} (h : decode (s.readMem s.pc) = i) : step s = exec i s := by
  rw [step_eq, State.fetch, readPc_eq, h]

/-- Settles O26: the fetch reads the word at the PC, and decoding undoes encoding. -/
theorem stepRunsTheDecodedInstruction : Obligations.StepRunsTheDecodedInstruction := by
  refine ⟨fun s => step_eq_exec_of_decode rfl, fun s i hwf hword => step_eq_exec_of_decode ?_⟩
  rw [hword, decodeOfEncodeIsTheInstruction i hwf]

/-! ## Totality -/

/-- The state one cycle leads to: that of the instruction fetched. -/
def afterCycle (s : State) : State := nextState (decode s.fetch) s

/-- R175: a step completes, in `afterCycle`. -/
theorem step_eq_next (s : State) : step s = .next (afterCycle s) := step_eq_next_iff.mpr rfl

/-- R177: a run goes on from the next state of its first step. -/
theorem run_succ_of_step {M : Host.Core} {s t : M.State} (h : M.step s = .next t) (n : Nat) :
    M.run (n + 1) s = M.run n t := by
  rw [Host.Core.run, h]

/-- R175, R177: a run of `n` steps completes, in the `n`-th iterate of `afterCycle`. -/
theorem run_eq_next (n : Nat) (s : State) : Sys2Proof.core.run n s = .next (afterCycle^[n] s) := by
  induction n generalizing s with
  | zero => rfl
  | succ n ih => exact (run_succ_of_step (M := Sys2Proof.core) (step_eq_next s) n).trans (ih (afterCycle s))

/-- Settles O29: the next state is `afterCycle`, and a run iterates it. -/
theorem cycleIsTotal : Obligations.CycleIsTotal :=
  ⟨fun s => ⟨_, step_eq_next s⟩, fun n s => ⟨_, run_eq_next n s⟩⟩

/-! ## Determinism of the architecture -/

/-- R162: the word fetched is part of the architecture. -/
theorem fetch_congr {s u : State} (h : SameArchitecture s u) : u.fetch = s.fetch := by
  obtain ⟨hpc, -, hmem⟩ := h
  rw [State.fetch, State.fetch, readPc_eq, readPc_eq, hpc, hmem]

/-- R173: an instruction's cycle keeps two states alike in architecture. The PC, memory and the destination depend on
no register but the sources (R25), and every other register reads as before in both. -/
theorem nextState_sameArchitecture {s u : State} (h : SameArchitecture s u) (i : Instr) :
    SameArchitecture (nextState i s) (nextState i u) := by
  obtain ⟨hpc, hregs, hmem⟩ := h
  obtain ⟨t, v, ht, hv, hpc', hmem', hdest'⟩ := onlyTheSourcesMatter i s u hpc hmem (fun q _ => hregs q)
  obtain rfl : nextState i s = t := by simpa [exec_eq_next] using ht
  obtain rfl : nextState i u = v := by simpa [exec_eq_next] using hv
  refine ⟨hpc', fun q => ?_, hmem'⟩
  by_cases hdest : destOf i = some q ∧ q ≠ RegIndex.r0
  · exact hdest' q hdest.1
  · rw [nextState_readReg_of_not_dest hdest, nextState_readReg_of_not_dest hdest, hregs q]

/-- R173: one cycle keeps two states alike in architecture, since both run the same instruction. -/
theorem afterCycle_sameArchitecture {s u : State} (h : SameArchitecture s u) :
    SameArchitecture (afterCycle s) (afterCycle u) := by
  rw [afterCycle, afterCycle, fetch_congr h]
  exact nextState_sameArchitecture h _

/-- R173: so does every number of cycles. -/
theorem iterate_afterCycle_sameArchitecture {s u : State} (h : SameArchitecture s u) (n : Nat) :
    SameArchitecture (afterCycle^[n] s) (afterCycle^[n] u) := by
  induction n generalizing s u with
  | zero => exact h
  | succ n ih => exact ih (afterCycle_sameArchitecture h)

/-- Settles O30: `SameArchitecture` is a relation every cycle keeps, so every run keeps it. -/
theorem architectureIsDeterministic : Obligations.ArchitectureIsDeterministic :=
  ⟨fun s u h => ⟨_, _, step_eq_next s, step_eq_next u, afterCycle_sameArchitecture h⟩,
    fun n s u h => ⟨_, _, run_eq_next n s, run_eq_next n u, iterate_afterCycle_sameArchitecture h n⟩⟩

end Sys2Proof.Machine
end

section
/-! PROOFS. Where the memory write of a cycle goes, for every setting of the control signals (spec/44_cycle.md R166). -/

namespace Sys2Proof

/-- R131: an immediate that fits its field keeps its value when widened. -/
theorem Word.val_ofImm {imm : Int} (h : Instr.immInRange imm) : (Word.ofImm imm).val = imm := by
  rw [Word.ofImm, TritField.val_sext, TritField.val_fromValue h.1 h.2]

namespace Machine

/-- R166: with memory write enabled, the second source's word is at the address equal to the latched result. -/
theorem execute_onlyWord {cs : ControlSignals} (hwrite : cs.memWrite = true) (s : State) (imm : Word)
    (rd rs1 rs2 : RegIndex) (seq target : Word) :
    OnlyWord s (s.execute cs imm rd rs1 rs2 seq target) (s.execute cs imm rd rs1 rs2 seq target).alu.result
      (s.readReg rs2) := by
  intro addr
  simp only [execute_readMem, execute_alu, hwrite, true_and, TritField.val_inj]

/-- R166: with memory write disabled, no address changes. -/
theorem execute_sameMemory {cs : ControlSignals} (hwrite : cs.memWrite = false) (s : State) (imm : Word)
    (rd rs1 rs2 : RegIndex) (seq target : Word) : SameMemory s (s.execute cs imm rd rs1 rs2 seq target) := by
  intro addr
  rw [execute_readMem, if_neg (by simp [hwrite])]

/-- R184: the address a Sw latches is the encoding of its base plus its offset. -/
theorem nextState_sw_result {imm : Int} (h : Instr.immInRange imm) (rs1 rs2 : RegIndex) (s : State) :
    (nextState (.sw rs1 rs2 imm) s).alu.result = TritField.fromValue 27 ((s.readReg rs1).val + imm) :=
  calc (nextState (.sw rs1 rs2 imm) s).alu.result
    _ = (aluRun s swSignals (Word.ofImm imm) rs1 rs2).alu.result := congrArg _ (execute_alu ..)
    _ = (s.readReg rs1).ripple (Word.ofImm imm) := aluRun_result_of_add_imm s rfl rfl rfl _ rs1 rs2
    _ = TritField.fromValue 27 ((s.readReg rs1).val + imm) := by rw [Word.ripple_eq_fromValue, Word.val_ofImm h]

/-- Settles O31: memory after the execute phase, enabled and disabled, and the result that a Sw latches. -/
theorem memoryWriteGoesToTheResult : Obligations.MemoryWriteGoesToTheResult := by
  refine ⟨fun cs imm rd rs1 rs2 s => ⟨_, runCycle_eq s cs rd rs1 rs2 imm, ?_, ?_⟩, fun rs1 rs2 imm s himm => ?_⟩
  · exact fun hwrite => execute_onlyWord hwrite s _ _ _ _ _ _
  · exact fun hwrite => execute_sameMemory hwrite s _ _ _ _ _ _
  · exact ⟨_, exec_eq_next _ s, nextState_sw_result himm rs1 rs2 s⟩

end Machine

end Sys2Proof
end

section
/-! PROOFS. What the host places in memory: a whole image, or one word at the PC (spec/44_cycle.md R176;
spec/70_reset_and_hazards.md R234; spec/20_memory.md R42). -/

namespace Sys2Proof.Machine

/-- R42: a memory write changes the word at its address alone. -/
theorem writeMem_onlyWord (s : State) (a : Address) (v : Word) : OnlyWord s (s.writeMem a v) a v := by
  intro addr
  rw [readMem_writeMem]
  simp only [TritField.val_inj]

/-! ## A memory image -/

section
variable (c : Address × Word) (image : List (Address × Word)) (s : State)

@[simp] theorem loadImage_nil : s.loadImage [] = s := rfl

@[simp] theorem loadImage_cons : s.loadImage (c :: image) = (s.writeMem c.1 c.2).loadImage image := rfl

@[simp] theorem loadImage_pc : (s.loadImage image).pc = s.pc := by
  induction image generalizing s with
  | nil => rfl
  | cons c rest ih => rw [loadImage_cons, ih, writeMem_pc]

@[simp] theorem loadImage_readReg (q : RegIndex) : (s.loadImage image).readReg q = s.readReg q := by
  induction image generalizing s with
  | nil => rfl
  | cons c rest ih => rw [loadImage_cons, ih, writeMem_readReg]

end

/-- R176: an address the image does not name reads as before. -/
theorem loadImage_readMem_of_notMem {image : List (Address × Word)} {addr : Address}
    (h : addr ∉ image.map Prod.fst) (s : State) : (s.loadImage image).readMem addr = s.readMem addr := by
  induction image generalizing s with
  | nil => rfl
  | cons c rest ih =>
    obtain ⟨hne, hrest⟩ := not_or.mp (mt List.mem_cons.mpr h)
    rw [loadImage_cons, ih hrest, writeMem_onlyWord, if_neg hne]

/-- R176: each word of an image with distinct addresses is read at its address, as the words placed after it go
elsewhere. -/
theorem loadImage_readMem_of_mem {image : List (Address × Word)} (hnodup : (image.map Prod.fst).Nodup)
    {c : Address × Word} (hc : c ∈ image) (s : State) : (s.loadImage image).readMem c.1 = c.2 := by
  induction image generalizing s with
  | nil => simp at hc
  | cons d rest ih =>
    obtain ⟨hhead, hrest⟩ := List.nodup_cons.mp hnodup
    rw [loadImage_cons]
    rcases List.mem_cons.mp hc with rfl | hc
    · rw [loadImage_readMem_of_notMem hhead, writeMem_onlyWord, if_pos rfl]
    · exact ih hrest hc _

/-- Settles O44: memory at and off the image's addresses, the PC and the registers. -/
theorem placedImageIsRead : Obligations.PlacedImageIsRead :=
  fun image s hnodup =>
    ⟨fun _ hc => loadImage_readMem_of_mem hnodup hc s, fun _ haddr => loadImage_readMem_of_notMem haddr s,
      loadImage_pc image s, loadImage_readReg image s⟩

/-! ## One word at the PC -/

/-- The word placed stands at the PC, and no other word of memory has changed. -/
theorem withFetchWord_onlyWord (s : State) (nbits w : Nat) :
    OnlyWord s (s.withFetchWord nbits w) s.pc (tableWord w) :=
  writeMem_onlyWord s s.pc (tableWord w)

/-- Placing a word leaves the PC. -/
@[simp] theorem withFetchWord_pc (s : State) (nbits w : Nat) : (s.withFetchWord nbits w).pc = s.pc := rfl

/-- Settles O27: the word at the PC of the new state is the word placed, which decodes to the instruction. -/
theorem placedWordRunsNext : Obligations.PlacedWordRunsNext := by
  intro s nbits w i hdecode
  have hword : decode (tableWord w) = i := Option.some.inj hdecode
  refine ⟨step_eq_exec_of_decode ?_, withFetchWord_pc s nbits w, fun _ => rfl, withFetchWord_onlyWord s nbits w⟩
  rw [withFetchWord_pc, withFetchWord_onlyWord, if_pos rfl, hword]

end Sys2Proof.Machine
end

section
/-! PROOFS. The state an instruction leaves, part by part: its destination, memory, the latches and the PC
(spec/44_cycle.md R165 to R170; spec/43_alu.md R146). -/

namespace Sys2Proof

/-! ## Immediates and sums -/

/-- R170, D2: the next address. -/
theorem Word.add_one (a : Word) : a.add Word.one = TritField.fromValue 27 (a.val + 1) := by
  rw [Word.add, Word.val_one]

/-- R171, D2: the address an immediate away. -/
theorem Word.add_ofImm {imm : Int} (h : Instr.immInRange imm) (a : Word) :
    a.add (Word.ofImm imm) = TritField.fromValue 27 (a.val + imm) := by
  rw [Word.add, Word.val_ofImm h]

/-- R182 to R184: the unit's sum of a word and an immediate. -/
theorem Word.ripple_ofImm {imm : Int} (h : Instr.immInRange imm) (a : Word) :
    a.ripple (Word.ofImm imm) = TritField.fromValue 27 (a.val + imm) := by
  rw [Word.ripple_eq_fromValue, Word.val_ofImm h]

/-- R187: an immediate that fits its field, widened, is the encoding of the immediate. -/
theorem Word.ofImm_eq_fromValue {imm : Int} (h : Instr.immInRange imm) :
    Word.ofImm imm = TritField.fromValue 27 imm := by
  rw [← TritField.fromValue_val (Word.ofImm imm), Word.val_ofImm h]

namespace Machine

/-! ## The latches -/

/-- R165: the latches after the cycle are those the unit's run left. -/
theorem nextState_alu (i : Instr) (s : State) :
    (nextState i s).alu = (aluRun s (signalsOf i) (Word.ofImm (immOf i)) (rs1Of i) (rs2Of i)).alu :=
  execute_alu ..

/-- D6, R146: a cycle that observes the unit leaves its own operands in the latches, and what they give. -/
theorem nextState_latched {i : Instr} (hobs : (signalsOf i).aluObserved = true) (s : State) :
    Latched (nextState i s) (signalsOf i).aluOp (s.readReg (rs1Of i))
      (operandB (signalsOf i).aluSrc (Word.ofImm (immOf i)) (s.readReg (rs2Of i)))
      (aluResult (signalsOf i).aluOp (s.readReg (rs1Of i))
        (operandB (signalsOf i).aluSrc (Word.ofImm (immOf i)) (s.readReg (rs2Of i)))) := by
  unfold Latched
  rw [nextState_alu, aluRun, runAlu_observed s hobs]
  exact ⟨rfl, rfl, rfl, rfl, zeroFlagOf_eq _⟩

theorem Latched.result_eq {t : State} {op : AluOp} {a b result : Word} (h : Latched t op a b result) :
    t.alu.result = result := by
  obtain ⟨-, -, -, hresult, -⟩ := h
  exact hresult

/-- R148: the flag latched with a difference is Positive exactly when the operands are equal. -/
theorem Latched.zeroFlag_eq_P_iff {t : State} {a b : Word} (h : Latched t .sub a b (a.ripple b.neg)) :
    t.alu.zeroFlag = .P ↔ a = b := by
  obtain ⟨-, -, -, -, hflag⟩ := h
  rw [hflag, ← zeroFlagOf_eq]
  exact zeroFlagOf_sub_eq_P_iff

/-! ## Registers -/

/-- R23: an instruction changes its destination alone, unless that is `r0`. -/
theorem nextState_onlyRegister {i : Instr} {rd : RegIndex} (hdest : destOf i = some rd) {s : State} {v : Word}
    (hv : rd ≠ RegIndex.r0 → (nextState i s).readReg rd = v) : OnlyRegister s (nextState i s) rd v := by
  intro q
  split
  · next h =>
    obtain ⟨rfl, hrd⟩ := h
    exact hv hrd
  · next h =>
    refine nextState_readReg_of_not_dest (fun ⟨hq, hzero⟩ => h ?_) s
    obtain rfl : rd = q := Option.some.inj (hdest.symm.trans hq)
    exact ⟨rfl, hzero⟩

/-- R168: the destination reads the value that the instruction's signals select. -/
theorem nextState_readReg_rd {i : Instr} {rd : RegIndex} (hdest : destOf i = some rd) (hrd : rd ≠ RegIndex.r0)
    (s : State) : (nextState i s).readReg rd =
      writebackValue (signalsOf i) ((nextState i s).memoryRead (signalsOf i) (nextState i s).alu.result)
        (s.pc.add Word.one) (nextState i s).alu.result := by
  obtain ⟨hwrite, rfl⟩ := destOf_eq_some_iff.mp hdest
  rw [nextState_alu]
  exact execute_readReg_rd hwrite (mt RegIndex.val_eq_zero.mp hrd)

/-- R168: an instruction that neither loads nor links writes the unit's result. -/
theorem nextState_onlyRegister_result {i : Instr} {rd : RegIndex} (hdest : destOf i = some rd)
    (hload : (signalsOf i).memToReg = false) (hlink : (signalsOf i).jump = false) {s : State} {op : AluOp}
    {a b result : Word} (hlatched : Latched (nextState i s) op a b result) :
    OnlyRegister s (nextState i s) rd result := by
  refine nextState_onlyRegister hdest (fun hrd => ?_)
  rw [nextState_readReg_rd hdest hrd, hlatched.result_eq]
  simp [writebackValue, hload, hlink]

/-- R168: an instruction without a destination writes no register. -/
theorem nextState_sameRegisters {i : Instr} (hdest : destOf i = none) (s : State) :
    SameRegisters s (nextState i s) :=
  fun _ => nextState_readReg_of_not_dest (by simp [hdest]) s

/-! ## Memory -/

/-- R166: an instruction without memory write changes no address. -/
theorem nextState_sameMemory {i : Instr} (hwrite : (signalsOf i).memWrite = false) (s : State) :
    SameMemory s (nextState i s) :=
  execute_sameMemory hwrite s _ _ _ _ _ _

/-! ## The PC -/

/-- R170: the PC after the cycle, selected by the flag the cycle latched. -/
theorem nextState_pc (i : Instr) (s : State) :
    (nextState i s).pc = nextPc (signalsOf i) (nextState i s).alu.zeroFlag (s.pc.add Word.one)
      (s.pc.add (Word.ofImm (immOf i))) := by
  rw [nextState_alu]
  exact execute_pc ..

/-- R170: an instruction that is no jump and no branch goes on to the next address. -/
theorem nextState_pc_of_not_transfer {i : Instr} (hjump : (signalsOf i).jump = false)
    (hbranch : (signalsOf i).branch = false) (s : State) :
    (nextState i s).pc = TritField.fromValue 27 (s.pc.val + 1) := by
  rw [nextState_pc, ← Word.add_one]
  simp [nextPc, hjump, hbranch]

/-- R186: a Jal goes to its target. -/
theorem nextState_jal_pc (rd : RegIndex) (imm : Int) (s : State) :
    (nextState (.jal rd imm) s).pc = s.pc.add (Word.ofImm imm) :=
  nextState_pc (.jal rd imm) s

/-- R185, D6: a Beq latches the difference of its registers. -/
theorem nextState_beq_latched (rs1 rs2 : RegIndex) (imm : Int) (s : State) :
    Latched (nextState (.beq rs1 rs2 imm) s) .sub (s.readReg rs1) (s.readReg rs2)
      ((s.readReg rs1).ripple (s.readReg rs2).neg) :=
  nextState_latched (i := .beq rs1 rs2 imm) rfl s

/-- R185: a Beq goes to its target exactly on equal words. -/
theorem nextState_beq_pc (rs1 rs2 : RegIndex) (imm : Int) (s : State) :
    (nextState (.beq rs1 rs2 imm) s).pc =
      if s.readReg rs1 = s.readReg rs2 then s.pc.add (Word.ofImm imm) else s.pc.add Word.one := by
  have hflag := (nextState_beq_latched rs1 rs2 imm s).zeroFlag_eq_P_iff
  rw [nextState_pc]
  simp [nextPc, signalsOf, beqSignals, immOf, hflag]

end Machine

end Sys2Proof
end

section
/-! PROOFS. The nine instructions: result, PC, frame and latches of each (spec/45_instructions.md R180 to R189). -/

namespace Sys2Proof.Machine

/-! ## Arithmetic -/

/-- Settles O17: the unit's sum is latched and written back. -/
theorem addWritesTheSum : Obligations.AddWritesTheSum := by
  intro rd rs1 rs2 s
  have hlatched := nextState_latched (i := .add rd rs1 rs2) rfl s
  exact ⟨_, exec_eq_next _ s, nextState_onlyRegister_result rfl rfl rfl hlatched, Word.ripple_eq_fromValue _ _,
    nextState_pc_of_not_transfer rfl rfl s, nextState_sameMemory rfl s, hlatched⟩

/-- Settles O18: the unit's difference is latched and written back, and its flag tests equality. -/
theorem subWritesTheDifference : Obligations.SubWritesTheDifference := by
  intro rd rs1 rs2 s
  have hlatched := nextState_latched (i := .sub rd rs1 rs2) rfl s
  exact ⟨_, exec_eq_next _ s, nextState_onlyRegister_result rfl rfl rfl hlatched, aluResult_sub _ _,
    nextState_pc_of_not_transfer rfl rfl s, nextState_sameMemory rfl s, hlatched, hlatched.zeroFlag_eq_P_iff⟩

/-- Settles O19: the unit's sum with the widened immediate is latched and written back. -/
theorem addiWritesTheSum : Obligations.AddiWritesTheSum := by
  intro rd rs1 imm s himm
  have hlatched := nextState_latched (i := .addi rd rs1 imm) rfl s
  exact ⟨_, exec_eq_next _ s, nextState_onlyRegister_result rfl rfl rfl hlatched, Word.ripple_ofImm himm _,
    nextState_pc_of_not_transfer rfl rfl s, nextState_sameMemory rfl s, hlatched⟩

/-- Settles O24: the unit passes the widened immediate on, and its first operand is a read of `r0`. -/
theorem luiWritesTheImmediate : Obligations.LuiWritesTheImmediate := by
  intro rd imm s himm
  have hlatched := nextState_latched (i := .lui rd imm) rfl s
  have hzero : s.readReg (rs1Of (.lui rd imm)) = Word.zero := readReg_r0 s
  rw [hzero] at hlatched
  exact ⟨_, exec_eq_next _ s, nextState_onlyRegister_result rfl rfl rfl hlatched, Word.ofImm_eq_fromValue himm,
    Word.val_ofImm himm, nextState_pc_of_not_transfer rfl rfl s, nextState_sameMemory rfl s, hlatched⟩

/-- Settles O36: each writes the immediate to the same register, Addi as its sum with the zero word, and goes on to
the next address. -/
theorem luiIsAddiFromZero : Obligations.LuiIsAddiFromZero := by
  intro rd imm s himm
  obtain ⟨t, hlui, htregs, henc, -, htpc, htmem, -⟩ := luiWritesTheImmediate rd imm s himm
  obtain ⟨u, haddi, huregs, hsum, hupc, humem, -⟩ := addiWritesTheSum rd RegIndex.r0 imm s himm
  rw [hsum, readReg_r0, Word.val_zero, zero_add, ← henc] at huregs
  exact ⟨t, u, hlui, haddi, hupc.trans htpc.symm, fun q => (huregs q).trans (htregs q).symm,
    fun addr => (humem addr).trans (htmem addr).symm⟩

/-! ## Load and store -/

/-- Settles O20: the destination reads the word at the latched address. -/
theorem lwLoadsTheWord : Obligations.LwLoadsTheWord := by
  intro rd rs1 imm s himm
  have hloaded : rd ≠ RegIndex.r0 → (nextState (.lw rd rs1 imm) s).readReg rd =
      s.readMem ((s.readReg rs1).ripple (Word.ofImm imm)) :=
    fun hrd => (nextState_lw_readReg_rd rd rs1 imm s).trans (if_neg hrd)
  exact ⟨_, exec_eq_next _ s, nextState_onlyRegister rfl hloaded, Word.ripple_ofImm himm _,
    nextState_pc_of_not_transfer rfl rfl s, nextState_sameMemory rfl s,
    nextState_latched (i := .lw rd rs1 imm) rfl s⟩

/-- Settles O21: memory changes at the latched address alone, and no register does. -/
theorem swStoresTheWord : Obligations.SwStoresTheWord := by
  intro rs1 rs2 imm s himm
  exact ⟨_, exec_eq_next _ s, nextState_sw_readMem rs1 rs2 imm s, Word.ripple_ofImm himm _,
    nextState_pc_of_not_transfer rfl rfl s, nextState_sameRegisters rfl s,
    nextState_latched (i := .sw rs1 rs2 imm) rfl s⟩

/-! ## Transfers and Nop -/

/-- Settles O22: the flag that selects the PC is that of the difference of the two registers. -/
theorem beqBranchesOnEquality : Obligations.BeqBranchesOnEquality := by
  intro rs1 rs2 imm s himm
  have hlatched := nextState_beq_latched rs1 rs2 imm s
  have hpc := nextState_beq_pc rs1 rs2 imm s
  rw [Word.add_ofImm himm, Word.add_one] at hpc
  exact ⟨_, exec_eq_next _ s, hpc, nextState_sameRegisters rfl s, nextState_sameMemory rfl s, hlatched,
    hlatched.zeroFlag_eq_P_iff⟩

/-- Settles O23: the value selected for the destination is the link, the next address. -/
theorem jalLinksAndJumps : Obligations.JalLinksAndJumps := by
  intro rd imm s himm
  have hlink : rd ≠ RegIndex.r0 →
      (nextState (.jal rd imm) s).readReg rd = TritField.fromValue 27 (s.pc.val + 1) :=
    fun hrd => (nextState_readReg_rd (i := .jal rd imm) rfl hrd s).trans (Word.add_one s.pc)
  exact ⟨_, exec_eq_next _ s, nextState_onlyRegister rfl hlink,
    (nextState_jal_pc rd imm s).trans (Word.add_ofImm himm s.pc), nextState_sameMemory rfl s⟩

/-- Settles O25: the cycle of Nop enables no write and no transfer. -/
theorem nopOnlyAdvances : Obligations.NopOnlyAdvances :=
  fun s => ⟨_, exec_eq_next _ s, nextState_nop_pc s, nextState_nop_sameRegisters s, nextState_nop_sameMemory s⟩

/-- Settles O35: by the instruction fetched; a Jal always leaves the sequence, a Beq on equal operands only, and the
others never. -/
theorem onlyTransfersLeaveTheSequence : Obligations.OnlyTransfersLeaveTheSequence := by
  intro s t hstep hpc
  obtain rfl := step_eq_next_iff.mp hstep
  generalize decode s.fetch = i at hpc ⊢
  cases i with
  | jal rd imm => exact .inl ⟨rd, imm, rfl, nextState_jal_pc rd imm s⟩
  | beq rs1 rs2 imm =>
    rw [nextState_beq_pc] at hpc ⊢
    have heq : s.readReg rs1 = s.readReg rs2 := of_not_not (fun h => hpc (if_neg h))
    exact .inr ⟨rs1, rs2, imm, rfl, heq, if_pos heq⟩
  | add | sub | addi | lw | sw | lui | nop =>
    exact absurd ((nextState_pc_of_not_transfer rfl rfl s).trans (Word.add_one s.pc).symm) hpc

end Sys2Proof.Machine
end

section
/-! PROOFS. The idioms that stop a program: an instruction that transfers to itself
(spec/70_reset_and_hazards.md R238). -/

namespace Sys2Proof

/-- R171: an address 0 away is the address itself. -/
theorem Word.add_ofImm_zero (a : Word) : a.add (Word.ofImm 0) = a := by
  rw [Word.add_ofImm (by decide), add_zero, TritField.fromValue_val]

namespace Machine

/-! ## Fixed points of the architecture -/

theorem SameArchitecture.refl (s : State) : SameArchitecture s s := ⟨rfl, fun _ => rfl, fun _ => rfl⟩

theorem SameArchitecture.trans {s t u : State} (h : SameArchitecture s t) (k : SameArchitecture t u) :
    SameArchitecture s u := by
  obtain ⟨hpc, hregs, hmem⟩ := h
  obtain ⟨kpc, kregs, kmem⟩ := k
  exact ⟨kpc.trans hpc, fun q => (kregs q).trans (hregs q), fun addr => (kmem addr).trans (hmem addr)⟩

/-- R173: an architecture that one cycle keeps is kept for ever. The run from the next state stays alike the run
from `s`, which the induction hypothesis leads back to `s`. -/
theorem sameArchitecture_iterate_afterCycle {s : State} (h : SameArchitecture s (afterCycle s)) (n : Nat) :
    SameArchitecture s (afterCycle^[n] s) := by
  induction n with
  | zero => exact .refl s
  | succ n ih => exact ih.trans (iterate_afterCycle_sameArchitecture h n)

/-! ## Transfers to themselves -/

/-- R186, R238: the target is the instruction itself, and the link goes to `r0`, which nothing changes (R23). -/
theorem nextState_selfJal_sameArchitecture (s : State) : SameArchitecture s (nextState (.jal RegIndex.r0 0) s) := by
  have hregs (q : RegIndex) : ¬(destOf (.jal RegIndex.r0 0) = some q ∧ q ≠ RegIndex.r0) :=
    fun ⟨hdest, hq⟩ => hq (Option.some.inj hdest).symm
  exact ⟨(nextState_jal_pc _ 0 s).trans (Word.add_ofImm_zero s.pc),
    fun q => nextState_readReg_of_not_dest (hregs q) s, nextState_sameMemory rfl s⟩

/-- R185, R238: a register equals itself, so the branch is taken, and its target is the instruction itself. -/
theorem nextState_selfBeq_sameArchitecture (r : RegIndex) (s : State) :
    SameArchitecture s (nextState (.beq r r 0) s) := by
  have hpc : (nextState (.beq r r 0) s).pc = s.pc := by
    rw [nextState_beq_pc, if_pos rfl, Word.add_ofImm_zero]
  exact ⟨hpc, nextState_sameRegisters rfl s, nextState_sameMemory rfl s⟩

/-- Settles O39: the cycle of either idiom keeps the architecture, so every number of cycles does. -/
theorem selfJumpIsAFixedPoint : Obligations.SelfJumpIsAFixedPoint := by
  intro n s hself
  have hcycle : SameArchitecture s (afterCycle s) := by
    obtain hjal | ⟨r, hbeq⟩ := hself
    · rw [afterCycle, hjal]
      exact nextState_selfJal_sameArchitecture s
    · rw [afterCycle, hbeq]
      exact nextState_selfBeq_sameArchitecture r s
  exact ⟨_, run_eq_next n s, sameArchitecture_iterate_afterCycle hcycle n⟩

end Machine

end Sys2Proof
end
